-- ==== Sys2Proof/Word.lean ====
section
/-! DEFINITION. The widths of CORE: a word is a 16-bit unsigned value, and an operand code has 6 bits
(spec/00_scope.md R5, R8). -/

namespace Sys2Proof

/-- The value of every register, memory cell, Location and data path: an unsigned number in 0 .. 65535, bit 0 the
least significant. Rules compute on exact numbers (`toNat`) and narrow once, `mod 2^16` (00_scope.md R8). -/
abbrev Word := BitVec 16

/-- A 6-bit operand code (00_scope.md R5, `OPERAND_CODE_BITS`). -/
abbrev OperandCode := BitVec 6

/-- A 4-bit opcode (00_scope.md R5, `OPCODE_BITS`). -/
abbrev Opcode := BitVec 4

end Sys2Proof
end

