-- ==== Sys2Proof/Config.lean ====
section
/-! DEFINITION. The parameters of the machine, each fixed to the value of spec/00_scope.md R5. The spec
leaves no value open, so there is no free value here. -/

namespace Sys2Proof.Config

/-- `MEM_WORDS`: the number of memory cells (00_scope.md R5). -/
def memWords : Nat := 65536

/-- What a byte of memory that nothing has written reads as: half of `MEM_RESET`, 0x0000
(10_state.md R21). -/
def unlistedByte : BitVec 8 := 0x00#8

/-- `GPR_RESET` (10_state.md R23). DESIGN CHOICE of the spec, D14: unsafe, log 2. -/
def gprReset : Word := 0x0000#16

/-- `PC_RESET` (10_state.md R24). DEDUCED by the spec from one example, D14: unsafe, log 3. -/
def pcReset : Word := 0x0000#16

/-- `SP_RESET` (10_state.md R22). -/
def spReset : Word := 0xFFFF#16

/-- `O_RESET` (10_state.md R25). DESIGN CHOICE of the spec, D14: unsafe, log 2. -/
def oReset : Word := 0x0000#16

end Sys2Proof.Config
end

