-- ==== Sys2Proof/Syntax.lean ====
section
/-! DEFINITION. The instructions of CORE as syntax: one constructor of `Instr` per row of
spec/opcode_table.json, over the operand forms of spec/40_operands.md R73 to R87. An operand carries
its extra word, if it has one. -/

namespace Sys2Proof

/-- The eight general registers; the id of each is its place in this list, 0 to 7 (10_state.md R12).
Ids 1 to 7 are DESIGN CHOICE of the spec, D2: naming only, log 5. -/
inductive Reg
  | a | b | c | x | y | z | i | j
  deriving DecidableEq, Repr

/-- The operand forms, one per row of 40_operands.md R90. -/
inductive Operand
  /-- codes 0x00..0x07 (R73) -/
  | reg (r : Reg)
  /-- codes 0x08..0x0F (R74) -/
  | indirect (r : Reg)
  /-- codes 0x10..0x17, with the extra word (R75) -/
  | indexed (r : Reg) (nw : Word)
  /-- code 0x18 (R77) -/
  | pop
  /-- code 0x19 (R78) -/
  | peek
  /-- code 0x1A (R79) -/
  | push
  /-- code 0x1B (R82) -/
  | sp
  /-- code 0x1C (R83) -/
  | pc
  /-- code 0x1D (R84) -/
  | o
  /-- code 0x1E, with the extra word (R85) -/
  | nextIndirect (nw : Word)
  /-- code 0x1F, with the extra word (R86) -/
  | nextLiteral (nw : Word)
  /-- codes 0x20..0x3F, the five low bits of the code (R87) -/
  | smallLiteral (n : BitVec 5)
  deriving DecidableEq, Repr

/-- The instructions. In a basic instruction `d` is the destination operand (field `a`) and `s` the
source operand (field `b`), 30_encoding.md R52, R54, R55. -/
inductive Instr
  | jsr (s : Operand)
  | set (d s : Operand)
  | add (d s : Operand)
  | sub (d s : Operand)
  | mul (d s : Operand)
  | div (d s : Operand)
  | mod (d s : Operand)
  | shl (d s : Operand)
  | shr (d s : Operand)
  | and (d s : Operand)
  | bor (d s : Operand)
  | xor (d s : Operand)
  | ife (d s : Operand)
  | ifn (d s : Operand)
  | ifg (d s : Operand)
  | ifb (d s : Operand)
  /-- RESERVED_NONBASIC: sub-opcode other than 0x01 (45_nonbasic.md R181) -/
  | reservedNonbasic (subop : BitVec 6) (s : Operand)
  deriving DecidableEq, Repr

end Sys2Proof
end

