-- ==== Sys2Proof/Machine/State.lean ====
section
/-! DEFINITION. The state of the machine, as spec/10_state.md R10 lists it and nothing else, its reset, and
the reasons a step could stop. -/

namespace Sys2Proof.Machine

/-- The eight general registers A, B, C, X, Y, Z, I, J (10_state.md R11). -/
structure RegFile where
  a : Word
  b : Word
  c : Word
  x : Word
  y : Word
  z : Word
  i : Word
  j : Word
  deriving DecidableEq, Repr

/-- The skip state (10_state.md R16). -/
inductive Skip
  | normal
  | skipNext
  deriving DecidableEq, Repr

/-- The 65536 words of memory as a list of (key, byte) pairs, keys strictly rising, no byte equal to what an
unlisted key reads as. The word at address `a` has its low byte at key `2 * a` and its high byte at key
`2 * a + 1`; no program can see that order (20_memory.md R33, R34). DESIGN CHOICE, safe: log 1. -/
abbrev Memory := List Host.Cell

/-- The architectural state (10_state.md R10). -/
structure State where
  regs : RegFile
  pc : Word
  sp : Word
  o : Word
  skip : Skip
  mem : Memory
  deriving DecidableEq, Repr

/-- Why a step could stop the machine. The hardware has no faults (60_exceptions.md R190). -/
inductive Fault
  /-- Raised by `step` if `fetch` gave the decoder fewer words than the instruction has. `fetch` gives
  three, the longest length (30_encoding.md R56), so no state raises it. Safe: log 20. -/
  | truncatedInstruction
  deriving DecidableEq, Repr

/-- Why the model could give an instruction no meaning. The hardware refuses nothing (60_exceptions.md R201). -/
inductive Refusal
  /-- Raised by an arm of `exec` for an instruction that has no meaning yet; no arm raises it. Safe. -/
  | notModelled (mnemonic : String)
  deriving DecidableEq, Repr

/-- Every general register at `GPR_RESET` (10_state.md R23, log 2). -/
def RegFile.reset : RegFile :=
  ⟨Config.gprReset, Config.gprReset, Config.gprReset, Config.gprReset,
    Config.gprReset, Config.gprReset, Config.gprReset, Config.gprReset⟩

/-- The machine as constructed (70_reset_and_hazards.md R210): SP = 0xFFFF and every memory cell 0 by R21 and
R22; the general registers and O by log 2; PC and skip by log 3. -/
def State.reset : State :=
  { regs := RegFile.reset, pc := Config.pcReset, sp := Config.spReset, o := Config.oReset,
    skip := .normal, mem := [] }

end Sys2Proof.Machine
end

