-- ==== Sys2Proof/Machine/Ops.lean ====
section
/-! DEFINITION. The named operations over memory and registers. The hardware has no exceptions
(spec/60_exceptions.md R190, R192), so none of them takes one or returns from one. -/

namespace Sys2Proof.Machine

/-! ### Bytes of memory -/

/-- The byte at a key. -/
def Memory.readByte : Memory → Nat → BitVec 8
  | [], _ => Config.unlistedByte
  | (k', v) :: m, k => if k' = k then v else Memory.readByte m k

/-- The memory without the entries at a key. -/
def Memory.eraseByte : Memory → Nat → Memory
  | [], _ => []
  | (k', v) :: m, k => if k' = k then Memory.eraseByte m k else (k', v) :: Memory.eraseByte m k

/-- The memory with an entry put before the first larger key. -/
def Memory.insertByte : Memory → Nat → BitVec 8 → Memory
  | [], k, v => [(k, v)]
  | (k', v') :: m, k, v => if k < k' then (k, v) :: (k', v') :: m else (k', v') :: Memory.insertByte m k v

/-- The memory with a byte stored: the entry is removed when the byte is what an unlisted key reads as. -/
def Memory.writeByte (m : Memory) (k : Nat) (v : BitVec 8) : Memory :=
  if v = Config.unlistedByte then Memory.eraseByte m k
  else Memory.insertByte (Memory.eraseByte m k) k v

/-- The canonical form from a key on: keys rising, inside the 65536 words, no byte an unlisted key reads as. -/
def Memory.wfFrom : Nat → Memory → Bool
  | _, [] => true
  | lo, (k, v) :: m =>
    decide (lo ≤ k) && decide (k < 2 * Config.memWords) && (v != Config.unlistedByte) && Memory.wfFrom (k + 1) m

/-- The canonical form of a memory (log 1). -/
def Memory.wf (m : Memory) : Bool := Memory.wfFrom 0 m

/-! ### Words of memory -/

/-- `MemRead(addr, 1)`: one word at a word address (20_memory.md R30, 00_scope.md R8). -/
def Memory.readWord (m : Memory) (addr : Word) : Word :=
  Memory.readByte m (2 * addr.toNat + 1) ++ Memory.readByte m (2 * addr.toNat)

/-- `MemWrite(addr, 1, v)`: one word at a word address (20_memory.md R31, 00_scope.md R8). -/
def Memory.writeWord (m : Memory) (addr : Word) (v : Word) : Memory :=
  Memory.writeByte (Memory.writeByte m (2 * addr.toNat) (v.extractLsb' 0 8)) (2 * addr.toNat + 1) (v.extractLsb' 8 8)

/-! ### General registers -/

/-- `x[r]` (10_state.md R11, R12). -/
def RegFile.get (f : RegFile) : Reg → Word
  | .a => f.a
  | .b => f.b
  | .c => f.c
  | .x => f.x
  | .y => f.y
  | .z => f.z
  | .i => f.i
  | .j => f.j

/-- `x[r] <- v` (10_state.md R11). -/
def RegFile.set (f : RegFile) (r : Reg) (v : Word) : RegFile :=
  match r with
  | .a => { f with a := v }
  | .b => { f with b := v }
  | .c => { f with c := v }
  | .x => { f with x := v }
  | .y => { f with y := v }
  | .z => { f with z := v }
  | .i => { f with i := v }
  | .j => { f with j := v }

/-! ### Accessors of the state -/

/-- A general register of the state. -/
def State.reg (s : State) (r : Reg) : Word := s.regs.get r

/-- The state with a general register written. -/
def State.setReg (s : State) (r : Reg) (v : Word) : State := { s with regs := s.regs.set r v }

/-- `PC <- v` (10_state.md R13). -/
def State.setPc (s : State) (v : Word) : State := { s with pc := v }

/-- `SP <- v` (10_state.md R14). -/
def State.setSp (s : State) (v : Word) : State := { s with sp := v }

/-- `O <- v` (10_state.md R15). -/
def State.setO (s : State) (v : Word) : State := { s with o := v }

/-- `skip <- v` (10_state.md R16). -/
def State.setSkip (s : State) (v : Skip) : State := { s with skip := v }

/-- The word at an address. -/
def State.readMem (s : State) (addr : Word) : Word := Memory.readWord s.mem addr

/-- The state with a word stored. -/
def State.writeMem (s : State) (addr v : Word) : State := { s with mem := Memory.writeWord s.mem addr v }

/-- The push of JSR: `SP <- (SP - 1) mod 2^16; MemWrite(SP, 1, v)` (45_nonbasic.md R180). -/
def State.pushWord (s : State) (v : Word) : State := (s.setSp (s.sp - 1#16)).writeMem (s.sp - 1#16) v

end Sys2Proof.Machine
end

