-- ==== Sys2Proof/Machine/Operands.lean ====
section
/-! DEFINITION. Locations and the location resolver, spec/40_operands.md. The extra word of an operand was
taken by the fetch, which read it before anything is written (log 21), so what is left of resolution is
the Location and the effect on SP. -/

namespace Sys2Proof.Machine

/-- The registers a Location may name (10_state.md R19). -/
inductive RegId
  | gpr (r : Reg)
  | pc
  | sp
  | o
  deriving DecidableEq, Repr

/-- A resolved operand; its address or literal is one word (10_state.md R19, 00_scope.md R8). -/
inductive Location
  | reg (id : RegId)
  | mem (addr : Word)
  | lit (v : Word)
  deriving DecidableEq, Repr

/-- `LocRead(loc)` (40_operands.md R71). -/
def State.locRead (s : State) : Location → Word
  | .reg (.gpr r) => s.reg r
  | .reg .pc => s.pc
  | .reg .sp => s.sp
  | .reg .o => s.o
  | .mem addr => s.readMem addr
  | .lit v => v

/-- `LocWrite(loc, v)`; a write to a literal does nothing (40_operands.md R72). -/
def State.locWrite (s : State) (loc : Location) (v : Word) : State :=
  match loc with
  | .reg (.gpr r) => s.setReg r v
  | .reg .pc => s.setPc v
  | .reg .sp => s.setSp v
  | .reg .o => s.setO v
  | .mem addr => s.writeMem addr v
  | .lit _ => s

/-- The Location of an operand, `Resolve(code, commit)` without its effect (40_operands.md R73 to R87). -/
def State.locOf (s : State) : Operand → Location
  | .reg r => .reg (.gpr r)
  | .indirect r => .mem (s.reg r)
  | .indexed r nw => .mem (s.reg r + nw)
  | .pop => .mem s.sp
  | .peek => .mem s.sp
  | .push => .mem (s.sp - 1#16)
  | .sp => .reg .sp
  | .pc => .reg .pc
  | .o => .reg .o
  | .nextIndirect nw => .mem nw
  | .nextLiteral nw => .lit nw
  | .smallLiteral n => .lit (n.setWidth 16)

/-- How far resolving an operand moves SP when it commits: pop up one, push down one, others not
(40_operands.md R77, R79, R90). -/
def stackShift : Operand → Word
  | .pop => 1#16
  | .push => 0xFFFF#16
  | .reg _ => 0#16
  | .indirect _ => 0#16
  | .indexed _ _ => 0#16
  | .peek => 0#16
  | .sp => 0#16
  | .pc => 0#16
  | .o => 0#16
  | .nextIndirect _ => 0#16
  | .nextLiteral _ => 0#16
  | .smallLiteral _ => 0#16

/-- The effect of `Resolve(code, commit)` on the state: SP moves for pop and push, and only when `commit` is
true (40_operands.md R70, R77, R79; DESIGN CHOICE of the spec, D5: unsafe, log 8). -/
def State.resolveEffect (s : State) (op : Operand) (commit : Bool) : State :=
  if commit then s.setSp (s.sp + stackShift op) else s

/-- What resolving both operands of a basic instruction gives. -/
structure Resolved where
  dst : Location
  src : Location
  state : State
  deriving DecidableEq, Repr

/-- Both operands of a basic instruction, the destination first (40_operands.md R88). -/
def resolveBoth (d b : Operand) (commit : Bool) (s : State) : Resolved :=
  { dst := s.locOf d
    src := (s.resolveEffect d commit).locOf b
    state := (s.resolveEffect d commit).resolveEffect b commit }

/-- Whether an operand resolves to a literal: code 0x1F or above (41_tick_sequencer.md R103). -/
def isLiteral : Operand → Bool
  | .nextLiteral _ => true
  | .smallLiteral _ => true
  | .reg _ => false
  | .indirect _ => false
  | .indexed _ _ => false
  | .pop => false
  | .peek => false
  | .push => false
  | .sp => false
  | .pc => false
  | .o => false
  | .nextIndirect _ => false

/-- A suppressed basic instruction: both operands are resolved without committing (41_tick_sequencer.md R103). -/
def suppressBasic (d b : Operand) (s : State) : State := (resolveBoth d b false s).state

/-- A suppressed non-basic instruction: only field `b` is an operand (30_encoding.md R53, log 7). -/
def suppressNonBasic (b : Operand) (s : State) : State := s.resolveEffect b false

end Sys2Proof.Machine
end

