-- ==== Sys2Proof/Machine/Flags.lean ====
section
/-! DEFINITION. What each operation captures in O, the conditions of the four tests, and the templates the
basic operations share. Values are computed on exact integers and narrowed once (spec/00_scope.md R8). -/

namespace Sys2Proof.Machine

/-! ### Values of O (10_state.md R15) -/

/-- ADD: the carry, 1 or 0 (42_move_arith.md R122; table semantics, D6: log 9). -/
def addOverflow (d s : Word) : Word := if 65536 ≤ d.toNat + s.toNat then 0x0001#16 else 0x0000#16

/-- SUB: 0xFFFF on borrow (42_move_arith.md R123). -/
def subOverflow (d s : Word) : Word := if (d.toNat : Int) - (s.toNat : Int) < 0 then 0xFFFF#16 else 0x0000#16

/-- MUL: the high half of the product (42_move_arith.md R124). -/
def mulOverflow (d s : Word) : Word := BitVec.ofNat 16 ((d.toNat * s.toNat) >>> 16)

/-- DIV: the fraction, from the operand read before the write; 0 for a zero source (42_move_arith.md R125;
DESIGN CHOICE of the spec, D8: unsafe, log 11). -/
def divOverflow (d s : Word) : Word :=
  if s = 0#16 then 0x0000#16 else BitVec.ofNat 16 ((d.toNat <<< 16) / s.toNat)

/-- MOD: 0 for a zero source, else O is not written (42_move_arith.md R126; D11: unsafe, log 14). -/
def modOverflow (s : Word) : Option Word := if s = 0#16 then some 0x0000#16 else none

/-- SHL: bits 31:16 of the exact shift (43_shift_logic.md R141; count not reduced, D10: unsafe, log 13). -/
def shlOverflow (d s : Word) : Word := BitVec.ofNat 16 ((d.toNat <<< s.toNat) >>> 16)

/-- SHR: the bits shifted out, left-aligned (43_shift_logic.md R142; PRESUMED by the spec, D9: unsafe, log 12). -/
def shrOverflow (d s : Word) : Word := BitVec.ofNat 16 ((d.toNat <<< 16) >>> s.toNat)

/-! ### Conditions -/

/-- IFE (44_conditional.md R161; table polarity, D6: log 9). -/
def ifeCond (d s : Word) : Bool := decide (d = s)

/-- IFN (44_conditional.md R162; table polarity, D6: log 9). -/
def ifnCond (d s : Word) : Bool := decide (d ≠ s)

/-- IFG, unsigned (44_conditional.md R163; DESIGN CHOICE of the spec, D7: unsafe, log 10). -/
def ifgCond (d s : Word) : Bool := decide (s.toNat < d.toNat)

/-- IFB (44_conditional.md R164). -/
def ifbCond (d s : Word) : Bool := decide (d &&& s ≠ 0#16)

/-! ### Templates -/

/-- What an ALU operation answers: the result, and the value for O when it writes O (42_move_arith.md R120). -/
structure AluResult where
  result : Word
  overflow : Option Word
  deriving DecidableEq, Repr

/-- The write-back of R120: the destination first, then O (DESIGN CHOICE of the spec, D12: unsafe, log 15). -/
def writeBack (D : Location) (r : AluResult) (s : State) : State :=
  match r.overflow with
  | none => s.locWrite D r.result
  | some v => (s.locWrite D r.result).setO v

/-- The template of opcodes 0x1 to 0xB on resolved Locations: both reads, then the write-back (R120). -/
def aluTemplate (f : Word → Word → AluResult) (D S : Location) (s : State) : State :=
  writeBack D (f (s.locRead D) (s.locRead S)) s

/-- The template of opcodes 0xC to 0xF on resolved Locations (44_conditional.md R160). -/
def condTemplate (cond : Word → Word → Bool) (D S : Location) (s : State) : State :=
  if cond (s.locRead D) (s.locRead S) then s else s.setSkip .skipNext

/-- A non-conditional basic instruction: suppressed as a whole when the destination is a literal
(41_tick_sequencer.md R103 case 3, 30_encoding.md R60), else resolved and dispatched. -/
def execNonConditional (body : Location → Location → State → State) (d b : Operand) (s : State) :
    Host.Outcome State Fault Refusal :=
  if isLiteral d then .next (suppressBasic d b s)
  else .next (body (resolveBoth d b true s).dst (resolveBoth d b true s).src (resolveBoth d b true s).state)

/-- A conditional instruction: a literal destination is read like any other operand (44_conditional.md R160). -/
def execConditional (body : Location → Location → State → State) (d b : Operand) (s : State) :
    Host.Outcome State Fault Refusal :=
  .next (body (resolveBoth d b true s).dst (resolveBoth d b true s).src (resolveBoth d b true s).state)

end Sys2Proof.Machine
end

