-- ==== Sys2Proof/Machine/Conditional.lean ====
section
/-! DEFINITION. IFE, IFN, IFG, IFB (spec/44_conditional.md R160 to R164). Each resolves its operands with
their effects whatever the outcome, and writes only the skip state. -/

namespace Sys2Proof.Machine

def opIfe (D S : Location) (s : State) : State := condTemplate ifeCond D S s
def opIfn (D S : Location) (s : State) : State := condTemplate ifnCond D S s
def opIfg (D S : Location) (s : State) : State := condTemplate ifgCond D S s
def opIfb (D S : Location) (s : State) : State := condTemplate ifbCond D S s

/-- IFE (R161). -/
def execIfe (d b : Operand) (s : State) : Host.Outcome State Fault Refusal := execConditional opIfe d b s

/-- IFN (R162). -/
def execIfn (d b : Operand) (s : State) : Host.Outcome State Fault Refusal := execConditional opIfn d b s

/-- IFG (R163). -/
def execIfg (d b : Operand) (s : State) : Host.Outcome State Fault Refusal := execConditional opIfg d b s

/-- IFB (R164). -/
def execIfb (d b : Operand) (s : State) : Host.Outcome State Fault Refusal := execConditional opIfb d b s

end Sys2Proof.Machine
end

