-- ==== Sys2Proof/Machine/MoveArith.lean ====
section
/-! DEFINITION. SET, ADD, SUB, MUL, DIV, MOD (spec/42_move_arith.md R121 to R126): for each, the result on
two values, the operation on resolved Locations, and the meaning of the instruction. -/

namespace Sys2Proof.Machine

/-- SET on values: the source; O is not written (R121). -/
def setAlu (_ s : Word) : AluResult := ⟨s, none⟩

/-- ADD on values (R122). -/
def addAlu (d s : Word) : AluResult := ⟨BitVec.ofNat 16 (d.toNat + s.toNat), some (addOverflow d s)⟩

/-- SUB on values (R123). -/
def subAlu (d s : Word) : AluResult :=
  ⟨BitVec.ofInt 16 ((d.toNat : Int) - (s.toNat : Int)), some (subOverflow d s)⟩

/-- MUL on values (R124). -/
def mulAlu (d s : Word) : AluResult := ⟨BitVec.ofNat 16 (d.toNat * s.toNat), some (mulOverflow d s)⟩

/-- DIV on values: 0 for a zero source, else the floor of the quotient (R125). -/
def divAlu (d s : Word) : AluResult :=
  ⟨if s = 0#16 then 0x0000#16 else BitVec.ofNat 16 (d.toNat / s.toNat), some (divOverflow d s)⟩

/-- MOD on values: 0 for a zero source, else the remainder (R126). -/
def modAlu (d s : Word) : AluResult :=
  ⟨if s = 0#16 then 0x0000#16 else BitVec.ofNat 16 (d.toNat % s.toNat), modOverflow s⟩

def opSet (D S : Location) (s : State) : State := aluTemplate setAlu D S s
def opAdd (D S : Location) (s : State) : State := aluTemplate addAlu D S s
def opSub (D S : Location) (s : State) : State := aluTemplate subAlu D S s
def opMul (D S : Location) (s : State) : State := aluTemplate mulAlu D S s
def opDiv (D S : Location) (s : State) : State := aluTemplate divAlu D S s
def opMod (D S : Location) (s : State) : State := aluTemplate modAlu D S s

/-- SET (R121). -/
def execSet (d b : Operand) (s : State) : Host.Outcome State Fault Refusal := execNonConditional opSet d b s

/-- ADD (R122). -/
def execAdd (d b : Operand) (s : State) : Host.Outcome State Fault Refusal := execNonConditional opAdd d b s

/-- SUB (R123). -/
def execSub (d b : Operand) (s : State) : Host.Outcome State Fault Refusal := execNonConditional opSub d b s

/-- MUL (R124). -/
def execMul (d b : Operand) (s : State) : Host.Outcome State Fault Refusal := execNonConditional opMul d b s

/-- DIV (R125). -/
def execDiv (d b : Operand) (s : State) : Host.Outcome State Fault Refusal := execNonConditional opDiv d b s

/-- MOD (R126). -/
def execMod (d b : Operand) (s : State) : Host.Outcome State Fault Refusal := execNonConditional opMod d b s

end Sys2Proof.Machine
end

