-- ==== Sys2Proof/Machine/NonBasic.lean ====
section
/-! DEFINITION. JSR and the reserved non-basic words (spec/45_nonbasic.md R180, R181). -/

namespace Sys2Proof.Machine

/-- JSR on a resolved Location: push PC, then PC := value(S), S read after the push (R180; DESIGN CHOICE of
the spec, D13: unsafe, log 16). -/
def opJsr (S : Location) (s : State) : State :=
  (s.pushWord s.pc).setPc ((s.pushWord s.pc).locRead S)

/-- JSR (R180). -/
def execJsr (b : Operand) (s : State) : Host.Outcome State Fault Refusal :=
  .next (opJsr (s.locOf b) (s.resolveEffect b true))

/-- A reserved non-basic word: suppressed, PC has moved past its words and nothing else changes (R181; the
sub-opcode is no operand, D4: unsafe, log 7). -/
def execReservedNonbasic (_ : BitVec 6) (b : Operand) (s : State) : Host.Outcome State Fault Refusal :=
  .next (suppressNonBasic b s)

end Sys2Proof.Machine
end

