-- ==== Sys2Proof/Machine/ShiftLogic.lean ====
section
/-! DEFINITION. SHL, SHR, AND, BOR, XOR (spec/43_shift_logic.md R140 to R145). The shift count is the whole
source word and the shift is exact (R140; DESIGN CHOICE of the spec, D10: unsafe, log 13). -/

namespace Sys2Proof.Machine

/-- SHL on values (R141). -/
def shlAlu (d s : Word) : AluResult := ⟨BitVec.ofNat 16 (d.toNat <<< s.toNat), some (shlOverflow d s)⟩

/-- SHR on values, logical (R142). -/
def shrAlu (d s : Word) : AluResult := ⟨BitVec.ofNat 16 (d.toNat >>> s.toNat), some (shrOverflow d s)⟩

/-- AND on values; O is not written (R143; D11: unsafe, log 14). -/
def andAlu (d s : Word) : AluResult := ⟨d &&& s, none⟩

/-- BOR on values; O is not written (R144; D11: unsafe, log 14). -/
def borAlu (d s : Word) : AluResult := ⟨d ||| s, none⟩

/-- XOR on values; O is not written (R145; D11: unsafe, log 14). -/
def xorAlu (d s : Word) : AluResult := ⟨d ^^^ s, none⟩

def opShl (D S : Location) (s : State) : State := aluTemplate shlAlu D S s
def opShr (D S : Location) (s : State) : State := aluTemplate shrAlu D S s
def opAnd (D S : Location) (s : State) : State := aluTemplate andAlu D S s
def opBor (D S : Location) (s : State) : State := aluTemplate borAlu D S s
def opXor (D S : Location) (s : State) : State := aluTemplate xorAlu D S s

/-- SHL (R141). -/
def execShl (d b : Operand) (s : State) : Host.Outcome State Fault Refusal := execNonConditional opShl d b s

/-- SHR (R142). -/
def execShr (d b : Operand) (s : State) : Host.Outcome State Fault Refusal := execNonConditional opShr d b s

/-- AND (R143). -/
def execAnd (d b : Operand) (s : State) : Host.Outcome State Fault Refusal := execNonConditional opAnd d b s

/-- BOR (R144). -/
def execBor (d b : Operand) (s : State) : Host.Outcome State Fault Refusal := execNonConditional opBor d b s

/-- XOR (R145). -/
def execXor (d b : Operand) (s : State) : Host.Outcome State Fault Refusal := execNonConditional opXor d b s

end Sys2Proof.Machine
end

