-- ==== Sys2Proof/Machine/Dispatch.lean ====
section
/-! DEFINITION. Dispatch: one arm per instruction, spec/41_tick_sequencer.md R107. The state is the one at
dispatch: PC holds the address after the whole instruction (R104). -/

namespace Sys2Proof.Machine

def exec (i : Instr) (s : State) : Host.Outcome State Fault Refusal :=
  match i with
  | .jsr b => Sys2Proof.Machine.execJsr b s
  | .set d b => Sys2Proof.Machine.execSet d b s
  | .add d b => Sys2Proof.Machine.execAdd d b s
  | .sub d b => Sys2Proof.Machine.execSub d b s
  | .mul d b => Sys2Proof.Machine.execMul d b s
  | .div d b => Sys2Proof.Machine.execDiv d b s
  | .mod d b => Sys2Proof.Machine.execMod d b s
  | .shl d b => Sys2Proof.Machine.execShl d b s
  | .shr d b => Sys2Proof.Machine.execShr d b s
  | .and d b => Sys2Proof.Machine.execAnd d b s
  | .bor d b => Sys2Proof.Machine.execBor d b s
  | .xor d b => Sys2Proof.Machine.execXor d b s
  | .ife d b => Sys2Proof.Machine.execIfe d b s
  | .ifn d b => Sys2Proof.Machine.execIfn d b s
  | .ifg d b => Sys2Proof.Machine.execIfg d b s
  | .ifb d b => Sys2Proof.Machine.execIfb d b s
  | .reservedNonbasic subop b => Sys2Proof.Machine.execReservedNonbasic subop b s

end Sys2Proof.Machine
end

