-- ==== Sys2Proof/WellFormed.lean ====
section
/-! DEFINITION. Which terms of `Instr` stand for instruction words. Every operand form is legal in every
operand position (30_encoding.md R57), and the types bound every field, so one check is left: the
sub-opcode of a reserved non-basic word is not JSR's (30_encoding.md R55). -/

namespace Sys2Proof

/-- The sub-opcode of JSR (30_encoding.md R55). -/
def jsrSubop : BitVec 6 := 0x01#6

/-- The check on instructions. -/
def Instr.wellFormed : Instr → Bool
  | .jsr _ => true
  | .set _ _ => true
  | .add _ _ => true
  | .sub _ _ => true
  | .mul _ _ => true
  | .div _ _ => true
  | .mod _ _ => true
  | .shl _ _ => true
  | .shr _ _ => true
  | .and _ _ => true
  | .bor _ _ => true
  | .xor _ _ => true
  | .ife _ _ => true
  | .ifn _ _ => true
  | .ifg _ _ => true
  | .ifb _ _ => true
  | .reservedNonbasic subop _ => subop != jsrSubop

end Sys2Proof
end

