-- ==== Sys2Proof/Decode.lean ====
section
/-! DEFINITION. The decoder, total on every list of words, and after it the encoder, both from the tables
of spec/30_encoding.md and spec/40_operands.md R90. Every instruction word decodes (R59); the only
rejections are of lists that end before the instruction does. -/

namespace Sys2Proof

/-- The opcode field `w[3:0]` (30_encoding.md R50; placement DEDUCED by the spec, D1: unsafe, log 4). -/
def opField (w : Word) : Opcode := w.extractLsb' 0 4

/-- The field `a = w[9:4]`: destination operand code, or the sub-opcode of the non-basic format (R50, R53). -/
def aField (w : Word) : OperandCode := w.extractLsb' 4 6

/-- The field `b = w[15:10]`: source operand code (R50). -/
def bField (w : Word) : OperandCode := w.extractLsb' 10 6

/-- The register with a given id (10_state.md R12). -/
def Reg.ofIndex (k : BitVec 3) : Reg :=
  match k.toNat with
  | 0 => .a
  | 1 => .b
  | 2 => .c
  | 3 => .x
  | 4 => .y
  | 5 => .z
  | 6 => .i
  | _ => .j

/-- The register an operand code names in its three low bits: `x[c]`, `x[c - 0x08]`, `x[c - 0x10]` for the
three register ranges (10_state.md R12). -/
def codeReg (c : OperandCode) : Reg := Reg.ofIndex (c.extractLsb' 0 3)

/-- The value of a small literal, code - 0x20, five bits (40_operands.md R87). The bias 0x20 is the
formula's (90_conflicts.md C3). -/
def smallLiteralBits (c : OperandCode) : BitVec 5 := (c - 0x20#6).extractLsb' 0 5

/-- 1 when an operand code takes an extra word, else 0 (30_encoding.md R56). -/
def needsExtra (c : OperandCode) : Nat :=
  if (0x10#6 ≤ c ∧ c ≤ 0x17#6) ∨ c = 0x1E#6 ∨ c = 0x1F#6 then 1 else 0

/-- The length in words, from the instruction word alone (30_encoding.md R56). -/
def wordLength (w : Word) : Nat :=
  if opField w = 0x0#4 then 1 + needsExtra (bField w)
  else 1 + needsExtra (aField w) + needsExtra (bField w)

/-- The operand of a code, given the word after it in case the code takes one (40_operands.md R73 to R87, R90).
The codes go by eights: 0x00..0x07, 0x08..0x0F, 0x10..0x17, then 0x18 to 0x1F one by one, then 0x20..0x3F. -/
def operandOf (c : OperandCode) (nw : Word) : Operand :=
  match c.toNat / 8 with
  | 0 => .reg (codeReg c)
  | 1 => .indirect (codeReg c)
  | 2 => .indexed (codeReg c) nw
  | 3 =>
    match c.toNat % 8 with
    | 0 => .pop
    | 1 => .peek
    | 2 => .push
    | 3 => .sp
    | 4 => .pc
    | 5 => .o
    | 6 => .nextIndirect nw
    | _ => .nextLiteral nw
  | _ => .smallLiteral (smallLiteralBits c)

/-- One operand, with its extra word taken from the front of the list; `none` when the extra word is missing. -/
def decodeOperand (c : OperandCode) (ws : List Word) : Option (Operand × List Word) :=
  if needsExtra c = 0 then some (operandOf c 0#16, ws)
  else
    match ws with
    | [] => none
    | nw :: rest => some (operandOf c nw, rest)

/-- The constructor of a basic opcode; `none` for 0x0, the non-basic format (30_encoding.md R54). -/
def basicForm (op : Opcode) : Option (Operand → Operand → Instr) :=
  match op.toNat with
  | 0x1 => some .set
  | 0x2 => some .add
  | 0x3 => some .sub
  | 0x4 => some .mul
  | 0x5 => some .div
  | 0x6 => some .mod
  | 0x7 => some .shl
  | 0x8 => some .shr
  | 0x9 => some .and
  | 0xA => some .bor
  | 0xB => some .xor
  | 0xC => some .ife
  | 0xD => some .ifn
  | 0xE => some .ifg
  | 0xF => some .ifb
  | _ => none

/-- Why a list of words is no instruction. -/
inductive DecodeError
  /-- the list is empty -/
  | noInstructionWord
  /-- the destination's extra word is missing -/
  | noDestinationWord
  /-- the source's extra word is missing -/
  | noSourceWord
  deriving DecidableEq, Repr

/-- What the decoder answers: an instruction and the words after it, or a rejection by name. -/
inductive Decoded
  | instr (i : Instr) (rest : List Word)
  | rejected (why : DecodeError)
  deriving DecidableEq, Repr

/-- The non-basic format: `a` is the sub-opcode and takes no extra word (30_encoding.md R53, R55;
DESIGN CHOICE of the spec, D4: unsafe, log 7). -/
def decodeNonBasic (subop : BitVec 6) (b : OperandCode) (ws : List Word) : Decoded :=
  match decodeOperand b ws with
  | none => .rejected .noSourceWord
  | some (s, rest) => if subop = jsrSubop then .instr (.jsr s) rest else .instr (.reservedNonbasic subop s) rest

/-- The basic format: the destination's extra word comes before the source's (30_encoding.md R52, R56;
40_operands.md R88). -/
def decodeBasic (form : Operand → Operand → Instr) (a b : OperandCode) (ws : List Word) : Decoded :=
  match decodeOperand a ws with
  | none => .rejected .noDestinationWord
  | some (d, afterD) =>
    match decodeOperand b afterD with
    | none => .rejected .noSourceWord
    | some (s, rest) => .instr (form d s) rest

/-- The decoder. -/
def decode : List Word → Decoded
  | [] => .rejected .noInstructionWord
  | w :: ws =>
    match basicForm (opField w) with
    | none => decodeNonBasic (aField w) (bField w) ws
    | some form => decodeBasic form (aField w) (bField w) ws

/-- The words of an opcode-table row: bit 0 of `w` is bit 0 of the first word, and every bit from `nbits`
on is 0. Three words, the longest instruction. -/
def tableWords (nbits w : Nat) : List Word :=
  [BitVec.ofNat 16 (w % 2 ^ nbits), BitVec.ofNat 16 ((w % 2 ^ nbits) >>> 16), BitVec.ofNat 16 ((w % 2 ^ nbits) >>> 32)]

/-- The instruction this decoder reads from an opcode-table word. -/
def decodeTableWord (nbits w : Nat) : Option Instr :=
  match decode (tableWords nbits w) with
  | .instr i _ => some i
  | .rejected _ => none

/-! ### The encoder -/

/-- The id of a register (10_state.md R12). -/
def Reg.index : Reg → BitVec 3
  | .a => 0#3
  | .b => 1#3
  | .c => 2#3
  | .x => 3#3
  | .y => 4#3
  | .z => 5#3
  | .i => 6#3
  | .j => 7#3

/-- The operand code of a form (30_encoding.md R57). -/
def Operand.code : Operand → OperandCode
  | .reg r => r.index.setWidth 6
  | .indirect r => 0x08#6 + r.index.setWidth 6
  | .indexed r _ => 0x10#6 + r.index.setWidth 6
  | .pop => 0x18#6
  | .peek => 0x19#6
  | .push => 0x1A#6
  | .sp => 0x1B#6
  | .pc => 0x1C#6
  | .o => 0x1D#6
  | .nextIndirect _ => 0x1E#6
  | .nextLiteral _ => 0x1F#6
  | .smallLiteral n => 0x20#6 + n.setWidth 6

/-- The extra word of a form, if it has one (30_encoding.md R56). -/
def Operand.extraWords : Operand → List Word
  | .reg _ => []
  | .indirect _ => []
  | .indexed _ nw => [nw]
  | .pop => []
  | .peek => []
  | .push => []
  | .sp => []
  | .pc => []
  | .o => []
  | .nextIndirect nw => [nw]
  | .nextLiteral nw => [nw]
  | .smallLiteral _ => []

/-- An instruction word from its fields, `bbbbbbaaaaaaoooo` (30_encoding.md R50, R63). -/
def assembleWord (op : Opcode) (a b : OperandCode) : Word := b ++ a ++ op

/-- The words of a basic instruction (30_encoding.md R52, R56). -/
def encodeBasic (op : Opcode) (d s : Operand) : List Word :=
  assembleWord op d.code s.code :: (d.extraWords ++ s.extraWords)

/-- The words of a non-basic instruction (30_encoding.md R53, R56). -/
def encodeNonBasic (subop : BitVec 6) (s : Operand) : List Word :=
  assembleWord 0x0#4 subop s.code :: s.extraWords

/-- The words of an instruction (30_encoding.md R54, R55, R63). -/
def encode : Instr → List Word
  | .jsr s => encodeNonBasic jsrSubop s
  | .set d s => encodeBasic 0x1#4 d s
  | .add d s => encodeBasic 0x2#4 d s
  | .sub d s => encodeBasic 0x3#4 d s
  | .mul d s => encodeBasic 0x4#4 d s
  | .div d s => encodeBasic 0x5#4 d s
  | .mod d s => encodeBasic 0x6#4 d s
  | .shl d s => encodeBasic 0x7#4 d s
  | .shr d s => encodeBasic 0x8#4 d s
  | .and d s => encodeBasic 0x9#4 d s
  | .bor d s => encodeBasic 0xA#4 d s
  | .xor d s => encodeBasic 0xB#4 d s
  | .ife d s => encodeBasic 0xC#4 d s
  | .ifn d s => encodeBasic 0xD#4 d s
  | .ifg d s => encodeBasic 0xE#4 d s
  | .ifb d s => encodeBasic 0xF#4 d s
  | .reservedNonbasic subop s => encodeNonBasic subop s

/-- The length of an instruction in words: 1 + needs(a) + needs(b) in the basic format, 1 + needs(b) in the
non-basic one (30_encoding.md R56). -/
def Instr.length (i : Instr) : Nat := (encode i).length

end Sys2Proof
end

