-- ==== Sys2Proof/Machine/Sequencer.lean ====
section
/-! DEFINITION. The program counter sequencer's share of a step: fetching an instruction's words and moving PC
past them, and running a skipped instruction (spec/41_tick_sequencer.md R101 to R105). -/

namespace Sys2Proof.Machine

/-- The three words from PC on, addresses modulo 2^16. Three is the longest instruction; reading a word the
instruction does not have changes nothing (20_memory.md R30; DEDUCED, safe: log 21). -/
def fetchWords (s : State) : List Word :=
  [s.readMem s.pc, s.readMem (s.pc + 1#16), s.readMem (s.pc + 2#16)]

/-- The state at dispatch: PC is past the words of the instruction (R104; DEDUCED by the spec, D3: unsafe, log 6). -/
def advance (i : Instr) (s : State) : State := s.setPc (s.pc + BitVec.ofNat 16 i.length)

/-- The effect of a suppressed instruction on the state at dispatch (R103). -/
def suppress (i : Instr) (s : State) : State :=
  match i with
  | .jsr b => suppressNonBasic b s
  | .set d b => suppressBasic d b s
  | .add d b => suppressBasic d b s
  | .sub d b => suppressBasic d b s
  | .mul d b => suppressBasic d b s
  | .div d b => suppressBasic d b s
  | .mod d b => suppressBasic d b s
  | .shl d b => suppressBasic d b s
  | .shr d b => suppressBasic d b s
  | .and d b => suppressBasic d b s
  | .bor d b => suppressBasic d b s
  | .xor d b => suppressBasic d b s
  | .ife d b => suppressBasic d b s
  | .ifn d b => suppressBasic d b s
  | .ifg d b => suppressBasic d b s
  | .ifb d b => suppressBasic d b s
  | .reservedNonbasic _ b => suppressNonBasic b s

/-- A skipped instruction: suppressed, and the skip state returns to `Normal` (R103 case 1, R105). It takes a
tick of its own (D17: log 18). -/
def runSkipped (i : Instr) (s : State) : Host.Outcome State Fault Refusal := .next ((suppress i s).setSkip .normal)

end Sys2Proof.Machine
end

