-- ==== Sys2Proof/Machine/Step.lean ====
section
/-! DEFINITION. One step of the machine is one tick (spec/41_tick_sequencer.md R100). -/

namespace Sys2Proof.Machine

/-- Fetch and decode the instruction at PC, move PC past it, then run it, or pass over it when it is skipped. -/
def step (s : State) : Host.Outcome State Fault Refusal :=
  match decode (fetchWords s) with
  | .rejected _ => .fault .truncatedInstruction
  | .instr i _ =>
    match s.skip with
    | .normal => exec i (advance i s)
    | .skipNext => runSkipped i (advance i s)

/-- The state with an opcode-table word stored at PC and after it, so that the next step runs it: three words,
the bits of `w` from `nbits` on being 0, and the skip state `Normal`, since a skipped instruction does not
run. This stands for the host's `load` of a program (log 19). -/
def State.withFetchWord (s : State) (nbits w : Nat) : State :=
  match tableWords nbits w with
  | [w0, w1, w2] =>
    (((s.writeMem s.pc w0).writeMem (s.pc + 1#16) w1).writeMem (s.pc + 2#16) w2).setSkip .normal
  | _ => s

end Sys2Proof.Machine
end

