-- ==== Sys2Proof/Machine/HostOps.lean ====
section
/-! DEFINITION. What the host can do to a machine besides constructing it and calling `step`
(spec/70_reset_and_hazards.md R212): `load` and `run`. -/

namespace Sys2Proof.Machine

/-- Copies words to ascending addresses from one on. -/
def Memory.copyWords : Memory → Nat → List Word → Memory
  | m, _, [] => m
  | m, addr, w :: ws => Memory.copyWords (Memory.writeWord m (BitVec.ofNat 16 addr) w) (addr + 1) ws

/-- `load(image)`: words to addresses 0, 1, ...; the words past the memory's size are dropped; nothing else
changes (R214; the last is DESIGN CHOICE of the spec, D15: unsafe, log 17). -/
def State.load (s : State) (image : List Word) : State :=
  { s with mem := Memory.copyWords s.mem 0 (image.take Config.memWords) }

/-- `run(maxTicks)`: exactly that many ticks (R215). -/
def run : Nat → State → Host.Outcome State Fault Refusal
  | 0, s => .next s
  | n + 1, s =>
    match step s with
    | .next t => run n t
    | .fault r => .fault r
    | .refused r => .refused r

end Sys2Proof.Machine
end

