-- ==== Sys2Proof/Machine/Tick.lean ====
section
/-! DEFINITION. The tick as the spec writes it, one word at a time: `NextWord`, `Resolve` on operand codes and
`Tick()` (spec/41_tick_sequencer.md R100, R101; spec/40_operands.md R70 to R87). `step` does not call it: a
statement says that the two agree. -/

namespace Sys2Proof.Machine

/-- `NextWord()` (R101). -/
def nextWord (s : State) : Word × State := (s.readMem s.pc, s.setPc (s.pc + 1#16))

/-- `Resolve(code, commit)` on a raw operand code (40_operands.md R73 to R87). -/
def resolveCode (c : OperandCode) (commit : Bool) (s : State) : Location × State :=
  if c < 0x08#6 then (.reg (.gpr (codeReg c)), s)
  else if c < 0x10#6 then (.mem (s.reg (codeReg c)), s)
  else if c < 0x18#6 then (.mem (s.reg (codeReg c) + (nextWord s).1), (nextWord s).2)
  else if c = 0x18#6 then (.mem s.sp, if commit then s.setSp (s.sp + 1#16) else s)
  else if c = 0x19#6 then (.mem s.sp, s)
  else if c = 0x1A#6 then (.mem (s.sp - 1#16), if commit then s.setSp (s.sp - 1#16) else s)
  else if c = 0x1B#6 then (.reg .sp, s)
  else if c = 0x1C#6 then (.reg .pc, s)
  else if c = 0x1D#6 then (.reg .o, s)
  else if c = 0x1E#6 then (.mem (nextWord s).1, (nextWord s).2)
  else if c = 0x1F#6 then (.lit (nextWord s).1, (nextWord s).2)
  else (.lit (c.setWidth 16 - 0x20#16), s)

/-- The `suppress` signal (R100, R103). -/
def suppressed (skip : Skip) (op : Opcode) (a : OperandCode) : Bool :=
  decide (skip = .skipNext)
    || (decide (op = 0x0#4) && decide (a ≠ 0x01#6))
    || (decide (0x1#4 ≤ op) && decide (op ≤ 0xB#4) && decide (0x1F#6 ≤ a))

/-- The `case op of` of R100 for opcodes 0x1 to 0xF. -/
def dispatchBasic (op : Opcode) (D S : Location) (s : State) : State :=
  match op.toNat with
  | 0x1 => opSet D S s
  | 0x2 => opAdd D S s
  | 0x3 => opSub D S s
  | 0x4 => opMul D S s
  | 0x5 => opDiv D S s
  | 0x6 => opMod D S s
  | 0x7 => opShl D S s
  | 0x8 => opShr D S s
  | 0x9 => opAnd D S s
  | 0xA => opBor D S s
  | 0xB => opXor D S s
  | 0xC => opIfe D S s
  | 0xD => opIfn D S s
  | 0xE => opIfg D S s
  | 0xF => opIfb D S s
  | _ => s

/-- `Tick()` (R100). -/
def tick (s : State) : State :=
  let w := (nextWord s).1
  let s1 := (nextWord s).2
  let op := opField w
  let a := aField w
  let b := bField w
  let supp := suppressed s.skip op a
  if op = 0x0#4 then
    let S := resolveCode b (!supp) s1
    if s.skip = .skipNext then S.2.setSkip .normal
    else if supp then S.2
    else opJsr S.1 S.2
  else
    let D := resolveCode a (!supp) s1
    let S := resolveCode b (!supp) D.2
    if s.skip = .skipNext then S.2.setSkip .normal
    else if supp then S.2
    else dispatchBasic op D.1 S.1 S.2

end Sys2Proof.Machine
end

