-- ==== Sys2Proof/Safety.lean ====
section
/-! DEFINITION. The terms the statements use: the invariant of the state, a safe run, and what an
instruction may change, said through reads of the state before and after. -/

namespace Sys2Proof.Machine

/-- The invariant of the state: its memory has the canonical form (log 1). -/
def State.wf (s : State) : Bool := Memory.wf s.mem

/-- A run is safe when no tick of it stops: every run of this machine is to be one (60_exceptions.md R201). -/
def SafeFor (n : Nat) (s : State) : Prop := ∃ t, run n s = .next t

/-! ### Operands -/

/-- One row of 40_operands.md R90: resolving code `c` in state `s`, whose next instruction-stream word is at PC, gives
Location `loc`, moves PC by `pcStep` and leaves SP at `sp'`; said of `Resolve` on the raw code and of the operand
the decoder makes of the code, which takes `pcStep` words. -/
def ResolvesTo (c : OperandCode) (commit : Bool) (s : State) (loc : Location) (pcStep : Nat) (sp' : Word) : Prop :=
  resolveCode c commit s = (loc, (s.setPc (s.pc + BitVec.ofNat 16 pcStep)).setSp sp') ∧
  ∃ op, decodeOperand c [s.readMem s.pc] = some (op, [s.readMem s.pc].drop pcStep) ∧ s.locOf op = loc ∧
    s.resolveEffect op commit = s.setSp sp'

/-- The value of the destination operand, read after both operands are resolved (40_operands.md R71, R89). -/
def destValue (d b : Operand) (s : State) : Word := (resolveBoth d b true s).state.locRead (resolveBoth d b true s).dst

/-- The value of the source operand, read after both operands are resolved (40_operands.md R71, R89). -/
def sourceValue (d b : Operand) (s : State) : Word := (resolveBoth d b true s).state.locRead (resolveBoth d b true s).src

/-! ### Effects, each with its frame -/

/-- The whole effect of a dispatched opcode 0x1 to 0xB with operands `d` and `b` that answers `result` and writes
`overflow` to O, if anything: `t` differs from `s` in the destination Location, in O, and in SP by the stack
operands; the stored cell is the one `locOf` computes for `d`. -/
structure BasicEffect (d b : Operand) (s t : State) (result : Word) (overflow : Option Word) : Prop where
  gpr : ∀ r, t.reg r = if s.locOf d = .reg (.gpr r) then result else s.reg r
  pc : t.pc = if s.locOf d = .reg .pc then result else s.pc
  sp : t.sp = if s.locOf d = .reg .sp then result else s.sp + stackShift d + stackShift b
  o : t.o = overflow.getD (if s.locOf d = .reg .o then result else s.o)
  mem : ∀ a, t.readMem a = if s.locOf d = .mem a then result else s.readMem a
  skip : t.skip = s.skip

/-- The whole effect of a dispatched opcode 0xC to 0xF: SP moves by the stack operands, and the skip state becomes
`SkipNext` when the condition is false. -/
structure CondEffect (d b : Operand) (s t : State) (holds : Prop) : Prop where
  gpr : ∀ r, t.reg r = s.reg r
  pc : t.pc = s.pc
  sp : t.sp = s.sp + stackShift d + stackShift b
  o : t.o = s.o
  mem : ∀ a, t.readMem a = s.readMem a
  skipWhenTrue : holds → t.skip = s.skip
  skipWhenFalse : ¬ holds → t.skip = .skipNext

/-- The address JSR stores the return address at. -/
def jsrAddress (b : Operand) (s : State) : Word := s.sp + stackShift b - 1#16

/-- The target of JSR: its operand, read after the push (45_nonbasic.md R180; D13: log 16). -/
def jsrTarget (b : Operand) (s : State) : Word :=
  if s.locOf b = .mem (jsrAddress b s) then s.pc
  else if s.locOf b = .reg .sp then jsrAddress b s
  else s.locRead (s.locOf b)

/-- The whole effect of a dispatched JSR. -/
structure JsrEffect (b : Operand) (s t : State) : Prop where
  gpr : ∀ r, t.reg r = s.reg r
  pc : t.pc = jsrTarget b s
  sp : t.sp = jsrAddress b s
  o : t.o = s.o
  mem : ∀ a, t.readMem a = if a = jsrAddress b s then s.pc else s.readMem a
  skip : t.skip = s.skip

/-! ### Classes of instructions -/

/-- Destination, source and operation of an instruction of opcodes 0x1 to 0xB; `none` for the others. -/
def aluOf : Instr → Option (Operand × Operand × (Word → Word → AluResult))
  | .set d b => some (d, b, setAlu)
  | .add d b => some (d, b, addAlu)
  | .sub d b => some (d, b, subAlu)
  | .mul d b => some (d, b, mulAlu)
  | .div d b => some (d, b, divAlu)
  | .mod d b => some (d, b, modAlu)
  | .shl d b => some (d, b, shlAlu)
  | .shr d b => some (d, b, shrAlu)
  | .and d b => some (d, b, andAlu)
  | .bor d b => some (d, b, borAlu)
  | .xor d b => some (d, b, xorAlu)
  | .jsr _ => none
  | .ife _ _ => none
  | .ifn _ _ => none
  | .ifg _ _ => none
  | .ifb _ _ => none
  | .reservedNonbasic _ _ => none

/-- Whether an instruction is a test whose condition is false in the state at dispatch (44_conditional.md R161 to R164). -/
def testFails (i : Instr) (s : State) : Prop :=
  match i with
  | .ife d b => destValue d b s ≠ sourceValue d b s
  | .ifn d b => destValue d b s = sourceValue d b s
  | .ifg d b => (destValue d b s).toNat ≤ (sourceValue d b s).toNat
  | .ifb d b => destValue d b s &&& sourceValue d b s = 0#16
  | .jsr _ => False
  | .set _ _ => False
  | .add _ _ => False
  | .sub _ _ => False
  | .mul _ _ => False
  | .div _ _ => False
  | .mod _ _ => False
  | .shl _ _ => False
  | .shr _ _ => False
  | .and _ _ => False
  | .bor _ _ => False
  | .xor _ _ => False
  | .reservedNonbasic _ _ => False

/-- Whether an instruction writes O as a side effect in the state at dispatch (10_state.md R15). -/
def capturesO (i : Instr) (s : State) : Prop :=
  match i with
  | .add _ _ => True
  | .sub _ _ => True
  | .mul _ _ => True
  | .div _ _ => True
  | .shl _ _ => True
  | .shr _ _ => True
  | .mod d b => sourceValue d b s = 0#16
  | .jsr _ => False
  | .set _ _ => False
  | .and _ _ => False
  | .bor _ _ => False
  | .xor _ _ => False
  | .ife _ _ => False
  | .ifn _ _ => False
  | .ifg _ _ => False
  | .ifb _ _ => False
  | .reservedNonbasic _ _ => False

/-- The operands an instruction resolves, destination first (30_encoding.md R52, R53). -/
def operandsOf : Instr → List Operand
  | .jsr b => [b]
  | .set d b => [d, b]
  | .add d b => [d, b]
  | .sub d b => [d, b]
  | .mul d b => [d, b]
  | .div d b => [d, b]
  | .mod d b => [d, b]
  | .shl d b => [d, b]
  | .shr d b => [d, b]
  | .and d b => [d, b]
  | .bor d b => [d, b]
  | .xor d b => [d, b]
  | .ife d b => [d, b]
  | .ifn d b => [d, b]
  | .ifg d b => [d, b]
  | .ifb d b => [d, b]
  | .reservedNonbasic _ b => [b]

/-- Whether an instruction is suppressed although it is not skipped (41_tick_sequencer.md R103 cases 2 and 3). -/
def isNoOp (i : Instr) : Bool :=
  match i with
  | .reservedNonbasic _ _ => true
  | i =>
    match aluOf i with
    | some (d, _, _) => isLiteral d
    | none => false

/-- The one cell an instruction may store to, computed in the state at dispatch: the destination cell of opcodes 0x1
to 0xB, the new stack top of JSR (20_memory.md R41). -/
def storedCell (i : Instr) (s : State) : Option Word :=
  match i with
  | .jsr b => some (jsrAddress b s)
  | i =>
    match aluOf i with
    | none => none
    | some (d, _, _) =>
      match s.locOf d with
      | .mem a => some a
      | .reg _ => none
      | .lit _ => none

/-- The value an instruction writes to PC beyond the advance, if it does (41_tick_sequencer.md R106). -/
def writtenPc (i : Instr) (s : State) : Option Word :=
  match i with
  | .jsr b => some (jsrTarget b s)
  | i =>
    match aluOf i with
    | none => none
    | some (d, b, f) => if d = .pc then some (f (destValue d b s) (sourceValue d b s)).result else none

end Sys2Proof.Machine
end

