-- ==== Sys2Proof/Certificates/Slice0/Obligations.lean ====
section
/-! DEFINITION. The statements about the model, from the numbered rules of spec/. A statement that rests on a
decision the spec marks as its own says so in its docstring and names the log entry. -/

open Sys2Proof
open Sys2Proof.Machine

/-! ### Encoding and decoding -/

/-- Words written out bit by bit from `bbbbbbaaaaaaoooo` (30_encoding.md R50, R54, R55, R57) decode to the
instructions they stand for: each family and a reserved word. Rests on the field positions the spec recovers from
one example (D1, log 4) and on the register ids (D2, log 5). -/
def Obligations.SpecEncodingsDecode : Prop :=
  decode [0b0111100111100001#16, 0x1000#16, 0x2000#16] = .instr (.set (.nextIndirect 0x1000#16) (.nextIndirect 0x2000#16)) [] ∧
  decode [0b0101100000000010#16, 0x0010#16] = .instr (.add (.reg .a) (.indexed .i 0x0010#16)) [] ∧
  decode [0b1000010111000011#16] = .instr (.sub .pc (.smallLiteral 1#5)) [] ∧
  decode [0b0011110011100100#16] = .instr (.mul (.indirect .i) (.indirect .j)) [] ∧
  decode [0b0110100110000111#16] = .instr (.shl .pop .push) [] ∧
  decode [0b0111010001111011#16] = .instr (.xor (.reg .j) .o) [] ∧
  decode [0b0110010111111101#16, 0x1000#16] = .instr (.ifn (.nextLiteral 0x1000#16) .peek) [] ∧
  decode [0b1111111111111111#16] = .instr (.ifb (.smallLiteral 31#5) (.smallLiteral 31#5)) [] ∧
  decode [0b0110110000010000#16] = .instr (.jsr .sp) [] ∧
  decode [0b0111110000100000#16, 0xFFFF#16] = .instr (.reservedNonbasic 0x02#6 (.nextLiteral 0xFFFF#16)) []

/-- The words of every instruction, as numbers: `b * 1024 + a * 16 + op` and then the extra word of `a` and that of
`b` (30_encoding.md R54, R55, R56, R63). Rests on the field positions the spec recovers from one example (D1, log 4)
and on the sub-opcode field being no operand (D4, log 7). -/
def Obligations.EncodingsFollowTheOpcodeMap : Prop :=
  (∀ op form, (op, form) ∈ ([(1, .set), (2, .add), (3, .sub), (4, .mul), (5, .div), (6, .mod), (7, .shl), (8, .shr), (9, .and),
      (10, .bor), (11, .xor), (12, .ife), (13, .ifn), (14, .ifg), (15, .ifb)] : List (Nat × (Operand → Operand → Instr))) →
    ∀ d b, (encode (form d b)).map BitVec.toNat =
      (b.code.toNat * 1024 + d.code.toNat * 16 + op) :: (d.extraWords ++ b.extraWords).map BitVec.toNat) ∧
  (∀ b, (encode (.jsr b)).map BitVec.toNat = (b.code.toNat * 1024 + 16) :: b.extraWords.map BitVec.toNat) ∧
  (∀ n b, (encode (.reservedNonbasic n b)).map BitVec.toNat =
    (b.code.toNat * 1024 + n.toNat * 16) :: b.extraWords.map BitVec.toNat)

/-- Decoding the words of a well-formed instruction, whatever follows them, gives that instruction back, with every
operand at every value its form admits (30_encoding.md R63; the field places by D1, log 4). -/
def Obligations.DecodeOfEncodeIsTheInstruction : Prop :=
  ∀ (i : Instr) (rest : List Word), i.wellFormed = true → decode (encode i ++ rest) = .instr i rest

/-- Whatever words decode to an instruction are that instruction's words and the rest: no bit of the words is
dropped, and the instruction is well-formed (30_encoding.md R63; the field places by D1, log 4). -/
def Obligations.EncodeOfDecodeIsTheWords : Prop :=
  ∀ (ws rest : List Word) (i : Instr), decode ws = .instr i rest → i.wellFormed = true ∧ encode i ++ rest = ws

/-- Every instruction word decodes, and its length in words is fixed by the word alone: `1 + needs(a) + needs(b)`, or
`1 + needs(b)` for opcode 0 (30_encoding.md R56, R59; 41_tick_sequencer.md R102; the sub-opcode takes no extra word
by D4, log 7). -/
def Obligations.EveryWordDecodesWithItsLength : Prop :=
  ∀ w x y : Word, ∃ i rest, decode [w, x, y] = .instr i rest ∧ i.length = wordLength w ∧
    rest = [w, x, y].drop (wordLength w) ∧ 1 ≤ wordLength w ∧ wordLength w ≤ 3

/-! ### Reset and host operations -/

/-- After reset SP is 0xFFFF and every cell of memory is 0; after an image is loaded at address 0 the cells it
reaches hold it, up to the size of memory, and every other cell still holds 0 (10_state.md R21, R22). -/
def Obligations.ResetStackPointerAndMemory : Prop :=
  State.reset.sp = 0xFFFF#16 ∧ (∀ a, State.reset.readMem a = 0x0000#16) ∧
  ∀ (image : List Word) (a : Word), (State.reset.load image).readMem a =
    if a.toNat < image.length then image.getD a.toNat 0#16 else 0x0000#16

/-- After reset A..J and O are 0 (the spec's own choice D14, log 2), PC is 0 and no skip is pending (the spec's
inference from one example, log 3). -/
def Obligations.ResetRegistersAreTheSpecsChoice : Prop :=
  (∀ r, State.reset.reg r = 0x0000#16) ∧ State.reset.o = 0x0000#16 ∧ State.reset.pc = 0x0000#16 ∧
    State.reset.skip = .normal

/-- The reset state meets the invariant of `StepKeepsTheMemoryForm`; the form is the model's own (log 1). -/
def Obligations.ResetMeetsTheMemoryForm : Prop := State.reset.wf = true

/-- `load` copies the image to addresses 0, 1, ... of any machine, drops what is past the 65536th word, and changes
nothing else (70_reset_and_hazards.md R214; the last clause is the spec's decision D15, log 17). -/
def Obligations.LoadCopiesTheImageFromZero : Prop :=
  ∀ (s : State) (image : List Word),
    (∀ a : Word, (s.load image).readMem a = if a.toNat < image.length then image.getD a.toNat 0#16 else s.readMem a) ∧
    (s.load image).regs = s.regs ∧ (s.load image).pc = s.pc ∧ (s.load image).sp = s.sp ∧ (s.load image).o = s.o ∧
    (s.load image).skip = s.skip

/-- `run(0)` changes nothing, and `run(m)` followed by `run(n)` is `run(m + n)`; every run comes to its end, for
nothing stops a tick (70_reset_and_hazards.md R215, R219; the spec derives both; a skipped instruction counts as
a tick by D17, log 18). -/
def Obligations.RunsComposeAndNeverStop : Prop :=
  (∀ s, run 0 s = .next s) ∧ (∀ n s, SafeFor n s) ∧
  ∀ m n s, ∃ t, run m s = .next t ∧ run (m + n) s = run n t

/-- In a machine whose memory is all zero, n ticks slide PC by n modulo 2^16 and change nothing else
(41_tick_sequencer.md R110, derived there; the word 0x0000 is a reserved word). -/
def Obligations.ZeroMemorySlides : Prop :=
  ∀ (n : Nat) (s : State), (∀ a, s.readMem a = 0x0000#16) → s.skip = .normal →
    run n s = .next (s.setPc (s.pc + BitVec.ofNat 16 n))

/-! ### Memory and Locations -/

/-- A store sets one cell and changes nothing else, at every address; a load gives what was stored last, and 0 in
a cell nothing has written since reset; a fetch at the address reads the stored word (20_memory.md R30, R31). -/
def Obligations.StoreSetsOneCellOnly : Prop :=
  ∀ (s : State) (addr v : Word),
    (∀ a, (s.writeMem addr v).readMem a = if a = addr then v else s.readMem a) ∧
    (s.writeMem addr v).regs = s.regs ∧ (s.writeMem addr v).pc = s.pc ∧ (s.writeMem addr v).sp = s.sp ∧
    (s.writeMem addr v).o = s.o ∧ (s.writeMem addr v).skip = s.skip ∧ State.reset.readMem addr = 0x0000#16 ∧
    (fetchWords ((s.writeMem addr v).setPc addr)).head? = some v

/-- The three address computations that can leave the range wrap modulo 2^16: register plus next word, SP one up or one
down (at a pop, a push and a JSR), and PC one up at a fetch, with the spec's examples (20_memory.md R32). -/
def Obligations.AddressesWrap : Prop :=
  (∀ (s : State) (r : Reg) (nw : Word), ∃ a, s.locOf (.indexed r nw) = .mem a ∧
    a.toNat = ((s.reg r).toNat + nw.toNat) % 65536 ∧ (s.reg r = 0xFFF0#16 → nw = 0x0020#16 → a = 0x0010#16)) ∧
  (∀ s : State, (s.resolveEffect .pop true).sp.toNat = (s.sp.toNat + 1) % 65536 ∧
    (∃ a, s.locOf .push = .mem a ∧ (s.resolveEffect .push true).sp = a ∧ a.toNat = (s.sp.toNat + 65535) % 65536) ∧
    (∀ v, (s.pushWord v).sp.toNat = (s.sp.toNat + 65535) % 65536) ∧ (nextWord s).2.pc.toNat = (s.pc.toNat + 1) % 65536) ∧
  (∀ s : State, s.sp = 0xFFFF#16 → (s.resolveEffect .pop true).sp = 0x0000#16) ∧
  (∀ s : State, s.sp = 0x0000#16 → (s.resolveEffect .push true).sp = 0xFFFF#16) ∧
  ∀ s : State, s.pc = 0xFFFF#16 → (nextWord s).2.pc = 0x0000#16

/-- `LocRead` gives the register, the cell or the literal a Location names, and `LocWrite` makes that Location read as
the value written, changes what no other Location reads, and does nothing to a literal (40_operands.md R71, R72). -/
def Obligations.LocationsReadAndWrite : Prop :=
  (∀ (s : State) (r : Reg) (a v : Word), s.locRead (.reg (.gpr r)) = s.reg r ∧ s.locRead (.reg .pc) = s.pc ∧
    s.locRead (.reg .sp) = s.sp ∧ s.locRead (.reg .o) = s.o ∧ s.locRead (.mem a) = s.readMem a ∧ s.locRead (.lit v) = v ∧
    s.locWrite (.lit a) v = s) ∧
  ∀ (s : State) (loc other : Location) (v : Word), (∀ u, loc ≠ .lit u) →
    (s.locWrite loc v).locRead other = (if other = loc then v else s.locRead other) ∧ (s.locWrite loc v).skip = s.skip

/-- Every step keeps the canonical form of memory: keys rising, inside the address space, no byte listed that an
unlisted key reads as. The form is the model's own (log 1); it makes equal memories equal data. -/
def Obligations.StepKeepsTheMemoryForm : Prop :=
  ∀ s t : State, s.wf = true → step s = .next t → t.wf = true

/-- The whole mapping of operand codes, one clause per row (40_operands.md R90). That SP stays for codes 0x18 and 0x1A
when `commit` is false is the spec's decision D5 (40_operands.md R70), log 8. -/
def Obligations.OperandCodesResolveByTheTable : Prop :=
  ∀ (commit : Bool) (s : State),
    (∀ r : Reg, ResolvesTo (BitVec.ofNat 6 r.index.toNat) commit s (.reg (.gpr r)) 0 s.sp) ∧
    (∀ r : Reg, ResolvesTo (BitVec.ofNat 6 (0x08 + r.index.toNat)) commit s (.mem (s.reg r)) 0 s.sp) ∧
    (∀ r : Reg, ResolvesTo (BitVec.ofNat 6 (0x10 + r.index.toNat)) commit s (.mem (s.reg r + s.readMem s.pc)) 1 s.sp) ∧
    ResolvesTo 0x18#6 commit s (.mem s.sp) 0 (if commit then s.sp + 1#16 else s.sp) ∧
    ResolvesTo 0x19#6 commit s (.mem s.sp) 0 s.sp ∧
    ResolvesTo 0x1A#6 commit s (.mem (s.sp - 1#16)) 0 (if commit then s.sp - 1#16 else s.sp) ∧
    ResolvesTo 0x1B#6 commit s (.reg .sp) 0 s.sp ∧
    ResolvesTo 0x1C#6 commit s (.reg .pc) 0 s.sp ∧
    ResolvesTo 0x1D#6 commit s (.reg .o) 0 s.sp ∧
    ResolvesTo 0x1E#6 commit s (.mem (s.readMem s.pc)) 1 s.sp ∧
    ResolvesTo 0x1F#6 commit s (.lit (s.readMem s.pc)) 1 s.sp ∧
    (∀ n : Nat, n < 32 → ResolvesTo (BitVec.ofNat 6 (0x20 + n)) commit s (.lit (BitVec.ofNat 16 n)) 0 s.sp)

/-- The interactions of stack operands inside one instruction that 40_operands.md R80 lists (derived there from R77 to
R79 and R88): one operand acts after the other, the destination first, whatever SP is. -/
def Obligations.StackOperandsActInOrder : Prop :=
  ∀ s : State,
    resolveBoth .push .pop true s = ⟨.mem (s.sp - 1#16), .mem (s.sp - 1#16), s⟩ ∧
    resolveBoth .pop .push true s = ⟨.mem s.sp, .mem s.sp, s⟩ ∧
    resolveBoth .pop .pop true s = ⟨.mem s.sp, .mem (s.sp + 1#16), s.setSp (s.sp + 2#16)⟩ ∧
    resolveBoth .push .push true s = ⟨.mem (s.sp - 1#16), .mem (s.sp - 2#16), s.setSp (s.sp - 2#16)⟩ ∧
    resolveBoth .push .peek true s = ⟨.mem (s.sp - 1#16), .mem (s.sp - 1#16), s.setSp (s.sp - 1#16)⟩ ∧
    resolveBoth .peek .pop true s = ⟨.mem s.sp, .mem s.sp, s.setSp (s.sp + 1#16)⟩ ∧
    (∃ t, exec (.set .push .sp) s = .next t ∧ t.readMem (s.sp - 1#16) = s.sp - 1#16 ∧ t.sp = s.sp - 1#16) ∧
    (∃ t, exec (.set .sp .pop) s = .next t ∧ t.sp = s.readMem s.sp) ∧
    (∃ t, exec (.add .pop (.smallLiteral 1#5)) s = .next t ∧ t.readMem s.sp = s.readMem s.sp + 1#16 ∧ t.sp = s.sp + 1#16)

/-! ### The tick -/

/-- A step runs the instruction decoded at PC on the state whose PC is past its words, or, when a skip is pending,
only moves PC and clears the skip (41_tick_sequencer.md R100, R103, R104; PC moves before dispatch by D3, log 6; SP
stays in a skipped instruction by D5, log 8). -/
def Obligations.StepRunsTheDecodedInstruction : Prop :=
  ∀ (s : State) (i : Instr) (rest : List Word), decode (fetchWords s) = .instr i rest →
    (s.skip = .normal → step s = exec i (s.setPc (s.pc + BitVec.ofNat 16 i.length))) ∧
    (s.skip = .skipNext → step s = .next ((s.setPc (s.pc + BitVec.ofNat 16 i.length)).setSkip .normal))

/-- When the words of a well-formed instruction stand in memory from PC on, wrapping at the top, the step runs that
instruction (20_memory.md R35; 41_tick_sequencer.md R100, R104; PC moves before dispatch by D3, log 6). -/
def Obligations.StepRunsTheStoredInstruction : Prop :=
  ∀ (s : State) (i : Instr), i.wellFormed = true → s.skip = .normal →
    (∀ k, k < i.length → (encode i)[k]? = some (s.readMem (s.pc + BitVec.ofNat 16 k))) →
    step s = exec i (s.setPc (s.pc + BitVec.ofNat 16 i.length))

/-- A step is one `Tick()` of the spec's pseudocode, which fetches word by word and resolves raw operand codes, in
every state (41_tick_sequencer.md R100; the pseudocode's commit signal is the spec's decision D5, log 8, its
sub-opcode rule D4, log 7, and its moment of moving PC D3, log 6). -/
def Obligations.StepIsTheSpecsTick : Prop := ∀ s : State, step s = .next (tick s)

/-- From every state exactly one next state exists, and every instruction, dispatched in any state, completes: there
is no fault, no refusal and no stuck state (41_tick_sequencer.md R112, derived there; 60_exceptions.md R190). -/
def Obligations.EveryStepAnswersANextState : Prop :=
  (∀ s : State, ∃! t, step s = .next t) ∧ ∀ (i : Instr) (s : State), ∃ t, exec i s = .next t

/-- A skipped instruction, whatever it is, moves PC by its length, clears the skip, and changes nothing else: no
register, no SP, no O, no memory, no further skip (41_tick_sequencer.md R103 case 1, R105; SP by D5, log 8). -/
def Obligations.SkippedInstructionOnlyMovesPc : Prop :=
  ∀ s : State, s.skip = .skipNext →
    step s = .next ((s.setPc (s.pc + BitVec.ofNat 16 (wordLength (s.readMem s.pc)))).setSkip .normal)

/-- The skip state machine: after a step `SkipNext` stands exactly when the step ran a test whose condition was false
(41_tick_sequencer.md R105, 10_state.md R16; polarity of the tests by D6, log 9, and of IFG by D7, log 10). -/
def Obligations.SkipIsSetByFailedTestsOnly : Prop :=
  ∀ (s : State) (i : Instr) (rest : List Word), decode (fetchWords s) = .instr i rest →
    ∃ t, step s = .next t ∧
      (t.skip = .skipNext ↔ s.skip = .normal ∧ testFails i (s.setPc (s.pc + BitVec.ofNat 16 i.length)))

/-- The net effect of one tick on PC: past the instruction's words, unless an instruction that is not suppressed
writes PC, and then the written value (41_tick_sequencer.md R108; PC moves before dispatch by D3, log 6; the JSR operand
is read after the push by D13, log 16). -/
def Obligations.PcAfterOneTick : Prop :=
  ∀ (s : State) (i : Instr) (rest : List Word), decode (fetchWords s) = .instr i rest →
    ∃ t, step s = .next t ∧
      (s.skip = .skipNext → t.pc = s.pc + BitVec.ofNat 16 i.length) ∧
      (s.skip = .normal → t.pc =
        (writtenPc i (s.setPc (s.pc + BitVec.ofNat 16 i.length))).getD (s.pc + BitVec.ofNat 16 i.length))

/-- A non-conditional instruction with a literal destination moves PC past its words and changes nothing else, whether
or not it is skipped (30_encoding.md R60, 41_tick_sequencer.md R103 case 3; SP stays with a POP or PUSH source by D5,
log 8). -/
def Obligations.LiteralDestinationIsANoOp : Prop :=
  ∀ (s : State) (i : Instr) (rest : List Word) (d b : Operand) (f : Word → Word → AluResult),
    decode (fetchWords s) = .instr i rest → aluOf i = some (d, b, f) → isLiteral d = true →
    step s = .next ((s.setPc (s.pc + BitVec.ofNat 16 i.length)).setSkip .normal)

/-- A reserved non-basic word moves PC by `1 + needs(b)` and changes nothing else (45_nonbasic.md R181; the sub-opcode
is no operand by D4, log 7, and SP stays by D5, log 8). -/
def Obligations.ReservedWordIsANoOp : Prop :=
  (∀ (n : BitVec 6) (b : Operand) (s : State), exec (.reservedNonbasic n b) s = .next s) ∧
  ∀ (s : State) (n : BitVec 6) (b : Operand) (rest : List Word),
    decode (fetchWords s) = .instr (.reservedNonbasic n b) rest →
    step s = .next ((s.setPc (s.pc + BitVec.ofNat 16 (1 + needsExtra b.code))).setSkip .normal)

/-- `SUB PC, 1` holds the machine: after it PC, the registers, SP, the skip state and memory are as before, O has the
borrow of the address after it, and the next step changes nothing at all (41_tick_sequencer.md R111, derived there; PC
as an operand by D3, log 6). -/
def Obligations.SubPcOneHoldsTheMachine : Prop :=
  ∀ s : State, s.skip = .normal → s.readMem s.pc = 0x85C3#16 →
    step s = .next (s.setO (if s.pc = 0xFFFF#16 then 0xFFFF#16 else 0x0000#16)) ∧
    step (s.setO (if s.pc = 0xFFFF#16 then 0xFFFF#16 else 0x0000#16)) =
      .next (s.setO (if s.pc = 0xFFFF#16 then 0xFFFF#16 else 0x0000#16))

/-- A store is seen by the next fetch, and a store into the instruction's own words does not disturb the tick that
makes it: `SET [a], v` runs with its old words, leaves `v` at `a`, and if `a` is the next instruction's address the
next fetch reads `v` (20_memory.md R40, the own-words clause derived there). -/
def Obligations.StoreIsSeenByTheNextFetch : Prop :=
  ∀ (s : State) (a v : Word) (rest : List Word), s.skip = .normal →
    decode (fetchWords s) = .instr (.set (.nextIndirect a) (.nextLiteral v)) rest →
    ∃ t, step s = .next t ∧ t.pc = s.pc + 3#16 ∧ (∀ x, t.readMem x = if x = a then v else s.readMem x) ∧
      (a = s.pc + 3#16 → (fetchWords t).head? = some v)

/-! ### The instructions: results, each with its frame -/

/-- SET writes the source value to the destination and leaves O unless O is the destination (42_move_arith.md R121). With a literal destination
nothing changes (41_tick_sequencer.md R103; SP by D5, log 8). -/
def Obligations.SetMovesTheSource : Prop :=
  ∀ (d b : Operand) (s : State),
    (isLiteral d = true → exec (.set d b) s = .next s) ∧
    (isLiteral d = false → ∃ t, exec (.set d b) s = .next t ∧ BasicEffect d b s t (sourceValue d b s) none)

/-- ADD writes the sum modulo 2^16 and the carry, 1 or 0, to O, which keeps the carry even as the destination
(42_move_arith.md R122; the carry is the table's, D6, log 9; O after D by D12, log 15). With a literal destination nothing
changes (41_tick_sequencer.md R103; SP by D5, log 8). -/
def Obligations.AddWritesSumAndCarry : Prop :=
  ∀ (d b : Operand) (s : State),
    (isLiteral d = true → exec (.add d b) s = .next s) ∧
    (isLiteral d = false → ∃ t, exec (.add d b) s = .next t ∧
      BasicEffect d b s t (destValue d b s + sourceValue d b s)
        (some (if 2 ^ 16 ≤ (destValue d b s).toNat + (sourceValue d b s).toNat then 0x0001#16 else 0x0000#16)))

/-- SUB writes the difference modulo 2^16, and 0xFFFF to O exactly on borrow, else 0 (42_move_arith.md R123; O after D
by D12, log 15). With a literal destination nothing changes (41_tick_sequencer.md R103; SP by D5, log 8). -/
def Obligations.SubWritesDifferenceAndBorrow : Prop :=
  ∀ (d b : Operand) (s : State),
    (isLiteral d = true → exec (.sub d b) s = .next s) ∧
    (isLiteral d = false → ∃ t, exec (.sub d b) s = .next t ∧
      BasicEffect d b s t (destValue d b s - sourceValue d b s)
        (some (if (destValue d b s).toNat < (sourceValue d b s).toNat then 0xFFFF#16 else 0x0000#16)))

/-- MUL writes the low half of the unsigned product and its high half to O (42_move_arith.md R124; O after D by D12,
log 15). With a literal destination nothing changes (41_tick_sequencer.md R103; SP by D5, log 8). -/
def Obligations.MulWritesBothHalves : Prop :=
  ∀ (d b : Operand) (s : State),
    (isLiteral d = true → exec (.mul d b) s = .next s) ∧
    (isLiteral d = false → ∃ t, exec (.mul d b) s = .next t ∧
      BasicEffect d b s t (destValue d b s * sourceValue d b s)
        (some (BitVec.ofNat 16 ((destValue d b s).toNat * (sourceValue d b s).toNat / 2 ^ 16))))

/-- DIV writes the floor of the quotient, and to O the low word of `(d << 16) / s` with `d` read before the write; by
zero both become 0 (42_move_arith.md R125; O's formula by D8, log 11; O after D by D12, log 15). With a literal
destination nothing changes, by zero too (41_tick_sequencer.md R103; SP by D5, log 8). -/
def Obligations.DivWritesQuotientAndFraction : Prop :=
  ∀ (d b : Operand) (s : State),
    (isLiteral d = true → exec (.div d b) s = .next s) ∧
    (isLiteral d = false → ∃ t, exec (.div d b) s = .next t ∧
      (sourceValue d b s = 0#16 → BasicEffect d b s t 0x0000#16 (some 0x0000#16)) ∧
      (sourceValue d b s ≠ 0#16 → BasicEffect d b s t (destValue d b s / sourceValue d b s)
        (some (BitVec.ofNat 16 ((destValue d b s).toNat * 2 ^ 16 / (sourceValue d b s).toNat)))))

/-- MOD writes the remainder and leaves O unless O is the destination; by zero both become 0 (42_move_arith.md R126; O
kept by D11, log 14; O after D by D12, log 15). With a literal destination nothing changes, by zero too (41_tick_sequencer.md R103; SP by D5, log 8). -/
def Obligations.ModWritesRemainder : Prop :=
  ∀ (d b : Operand) (s : State),
    (isLiteral d = true → exec (.mod d b) s = .next s) ∧
    (isLiteral d = false → ∃ t, exec (.mod d b) s = .next t ∧
      (sourceValue d b s = 0#16 → BasicEffect d b s t 0x0000#16 (some 0x0000#16)) ∧
      (sourceValue d b s ≠ 0#16 → BasicEffect d b s t (destValue d b s % sourceValue d b s) none))

/-- SHL writes the low word of `d * 2^s` and the next 16 bits to O, the count being the whole source word
(43_shift_logic.md R141; the count by D10, log 13; O after D by D12, log 15). With a literal destination nothing changes
(41_tick_sequencer.md R103; SP by D5, log 8). -/
def Obligations.ShlWritesShiftAndHighBits : Prop :=
  ∀ (d b : Operand) (s : State),
    (isLiteral d = true → exec (.shl d b) s = .next s) ∧
    (isLiteral d = false → ∃ t, exec (.shl d b) s = .next t ∧
      BasicEffect d b s t (BitVec.ofNat 16 ((destValue d b s).toNat * 2 ^ (sourceValue d b s).toNat))
        (some (BitVec.ofNat 16 ((destValue d b s).toNat * 2 ^ (sourceValue d b s).toNat / 2 ^ 16))))

/-- SHR writes the floor of `d / 2^s` and to O the low word of `d * 2^16 / 2^s`, the bits shifted out, left-aligned
(43_shift_logic.md R142; O's formula by D9, from outside the source, log 12; the count by D10, log 13; O after D by
D12, log 15). With a literal destination nothing changes (41_tick_sequencer.md R103; SP by D5, log 8). -/
def Obligations.ShrWritesShiftAndLowBits : Prop :=
  ∀ (d b : Operand) (s : State),
    (isLiteral d = true → exec (.shr d b) s = .next s) ∧
    (isLiteral d = false → ∃ t, exec (.shr d b) s = .next t ∧
      BasicEffect d b s t (BitVec.ofNat 16 ((destValue d b s).toNat / 2 ^ (sourceValue d b s).toNat))
        (some (BitVec.ofNat 16 ((destValue d b s).toNat * 2 ^ 16 / 2 ^ (sourceValue d b s).toNat))))

/-- AND, BOR and XOR write the bitwise result, bit by bit, and leave O unless O is the destination (43_shift_logic.md R143, R144, R145; O kept by
D11, log 14). With a literal destination nothing changes (41_tick_sequencer.md R103; SP by D5, log 8). -/
def Obligations.BitwiseOperationsActBitByBit : Prop :=
  ∀ (d b : Operand) (s : State),
    (isLiteral d = true → exec (.and d b) s = .next s ∧ exec (.bor d b) s = .next s ∧ exec (.xor d b) s = .next s) ∧
    (isLiteral d = false → ∃ t u v r q p,
      exec (.and d b) s = .next t ∧ BasicEffect d b s t r none ∧
      exec (.bor d b) s = .next u ∧ BasicEffect d b s u q none ∧
      exec (.xor d b) s = .next v ∧ BasicEffect d b s v p none ∧
      ∀ k, k < 16 →
        r.getLsbD k = ((destValue d b s).getLsbD k && (sourceValue d b s).getLsbD k) ∧
        q.getLsbD k = ((destValue d b s).getLsbD k || (sourceValue d b s).getLsbD k) ∧
        p.getLsbD k = ((destValue d b s).getLsbD k != (sourceValue d b s).getLsbD k))

/-- IFE skips the next instruction unless the operands are equal, IFN unless they differ; of the two exactly one sets
`SkipNext` (44_conditional.md R161, R162; polarity by D6, log 9; O kept by D11, log 14). A literal destination is read normally. -/
def Obligations.IfeAndIfnAreComplements : Prop :=
  ∀ (d b : Operand) (s : State), ∃ t u,
    exec (.ife d b) s = .next t ∧ CondEffect d b s t (destValue d b s = sourceValue d b s) ∧
    exec (.ifn d b) s = .next u ∧ CondEffect d b s u (destValue d b s ≠ sourceValue d b s) ∧
    (s.skip = .normal → (t.skip = .skipNext ↔ u.skip = .normal))

/-- IFG skips the next instruction unless the destination value is greater, unsigned (44_conditional.md R163; unsigned
by D7, log 10; polarity by D6, log 9; O kept by D11, log 14). A literal destination is read normally. -/
def Obligations.IfgComparesUnsigned : Prop :=
  ∀ (d b : Operand) (s : State), ∃ t, exec (.ifg d b) s = .next t ∧
    CondEffect d b s t ((sourceValue d b s).toNat < (destValue d b s).toNat)

/-- IFB: its encoding, its condition (a bit position is 1 in both operands), all it changes and leaves, for every
operand form, and the spec's two worked examples (44_conditional.md R164; O kept by D11, log 14). -/
def Obligations.IfbTestsCommonBits : Prop :=
  (∀ d b : Operand, encode (.ifb d b) = assembleWord 0xF#4 d.code b.code :: (d.extraWords ++ b.extraWords)) ∧
  (∀ (d b : Operand) (s : State), ∃ t, exec (.ifb d b) s = .next t ∧
    CondEffect d b s t (∃ k, k < 16 ∧ (destValue d b s).getLsbD k = true ∧ (sourceValue d b s).getLsbD k = true)) ∧
  (∀ s : State, s.skip = .normal → s.reg .a = 0x00F0#16 →
    (s.readMem s.pc = 0xC00F#16 → ∃ t, step s = .next t ∧ t.skip = .normal) ∧
    (s.readMem s.pc = 0xBC0F#16 → ∃ t, step s = .next t ∧ t.skip = .skipNext))

/-- JSR pushes the address after itself and jumps to its operand, read after the push, and leaves the general
registers, O and the skip state (45_nonbasic.md R180; the operand after the push by D13, log 16; PC at dispatch by
D3, log 6). -/
def Obligations.JsrPushesAndJumps : Prop :=
  ∀ (b : Operand) (s : State), ∃ t, exec (.jsr b) s = .next t ∧ JsrEffect b s t

/-! ### Laws of the operations on values -/

/-- The arithmetic laws for all words: ADD a 17-bit sum, SUB a 32-bit two's-complement difference, MUL a 32-bit
product, DIV a 16.16 fixed-point quotient whose fraction is that of the remainder, MOD the remainder of that quotient
(42_move_arith.md R127, R125; DIV's O by D8, log 11; O kept by MOD by D11, log 14). -/
def Obligations.ArithmeticLaws : Prop :=
  ∀ d s : Word,
    (∃ c, (addAlu d s).overflow = some c ∧ c.toNat ≤ 1 ∧ c.toNat * 2 ^ 16 + (addAlu d s).result.toNat = d.toNat + s.toNat) ∧
    (∃ c, (subAlu d s).overflow = some c ∧ c ++ (subAlu d s).result = d.setWidth 32 - s.setWidth 32) ∧
    (∃ c, (mulAlu d s).overflow = some c ∧ c.toNat * 2 ^ 16 + (mulAlu d s).result.toNat = d.toNat * s.toNat) ∧
    (∃ c, (divAlu d s).overflow = some c ∧
      (s = 0#16 → (divAlu d s).result = 0#16 ∧ c = 0#16) ∧
      (s ≠ 0#16 → (divAlu d s).result.toNat * 2 ^ 16 + c.toNat = d.toNat * 2 ^ 16 / s.toNat ∧
        c.toNat = d.toNat % s.toNat * 2 ^ 16 / s.toNat)) ∧
    (s = 0#16 → modAlu d s = ⟨0#16, some 0#16⟩) ∧
    (s ≠ 0#16 → (modAlu d s).overflow = none ∧ (modAlu d s).result.toNat < s.toNat ∧
      d.toNat = s.toNat * (divAlu d s).result.toNat + (modAlu d s).result.toNat)

/-- The shift laws for all words: SHL gives `(d * 2^s) mod 2^32` and loses nothing for counts up to 16, SHR gives the
16.16 value `d * 2^16` shifted right; counts of 32 and more give 0 and 0 (43_shift_logic.md R146, R140; the count by
D10, log 13; SHR's O by D9, log 12). -/
def Obligations.ShiftLaws : Prop :=
  ∀ d s : Word,
    (∃ c, (shlAlu d s).overflow = some c ∧
      c.toNat * 2 ^ 16 + (shlAlu d s).result.toNat = d.toNat * 2 ^ s.toNat % 2 ^ 32 ∧
      (s.toNat ≤ 16 → c.toNat * 2 ^ 16 + (shlAlu d s).result.toNat = d.toNat * 2 ^ s.toNat) ∧
      (32 ≤ s.toNat → c = 0#16 ∧ (shlAlu d s).result = 0#16)) ∧
    (∃ c, (shrAlu d s).overflow = some c ∧
      (shrAlu d s).result.toNat * 2 ^ 16 + c.toNat = d.toNat * 2 ^ 16 / 2 ^ s.toNat ∧
      (s.toNat ≤ 15 → c.toNat = d.toNat % 2 ^ s.toNat * 2 ^ (16 - s.toNat)) ∧
      (32 ≤ s.toNat → c = 0#16 ∧ (shrAlu d s).result = 0#16))

/-! ### Rules about the whole machine -/

/-- A general register changes in a step only when the instruction is one of opcodes 0x1 to 0xB, not skipped, and
that register is its destination operand: none is written implicitly (10_state.md R11). -/
def Obligations.GeneralRegisterChangesOnlyAsDestination : Prop :=
  ∀ (s : State) (i : Instr) (rest : List Word), decode (fetchWords s) = .instr i rest →
    ∃ t, step s = .next t ∧
      ∀ r, t.reg r ≠ s.reg r → s.skip = .normal ∧ ∃ b f, aluOf i = some (.reg r, b, f)

/-- SP after a step: unchanged when the instruction is skipped or a no-op (D5, log 8); one below the operand's effect
after JSR; and else moved by the pops and pushes among the operands, unless SP is the destination (10_state.md R14). -/
def Obligations.StackPointerMovesOnlyByStackUse : Prop :=
  ∀ (s : State) (i : Instr) (rest : List Word), decode (fetchWords s) = .instr i rest →
    ∃ t, step s = .next t ∧
      (s.skip = .skipNext ∨ isNoOp i = true → t.sp = s.sp) ∧
      (s.skip = .normal → (∀ b, i = .jsr b → t.sp = s.sp + stackShift b - 1#16) ∧
        (isNoOp i = false → (∀ b, i ≠ .jsr b) → (∀ b f, aluOf i ≠ some (.sp, b, f)) →
          t.sp = s.sp + ((operandsOf i).map stackShift).sum))

/-- O changes in a step only by ADD, SUB, MUL, DIV, SHL, SHR, by MOD with source 0, or as the destination, of an
instruction that is neither skipped nor a no-op (10_state.md R15; O kept by the others by D11, log 14). -/
def Obligations.OverflowChangesOnlyByItsWriters : Prop :=
  ∀ (s : State) (i : Instr) (rest : List Word), decode (fetchWords s) = .instr i rest →
    ∃ t, step s = .next t ∧
      (t.o ≠ s.o → s.skip = .normal ∧ isNoOp i = false ∧
        (capturesO i (s.setPc (s.pc + BitVec.ofNat 16 i.length)) ∨ ∃ b f, aluOf i = some (.o, b, f)))

/-- A step changes at most one cell of memory, the one computed from the instruction: the destination cell of opcodes
0x1 to 0xB, the new stack top of JSR; a skipped instruction changes none (20_memory.md R41, 10_state.md R27). -/
def Obligations.StepStoresOnlyToTheComputedCell : Prop :=
  ∀ (s : State) (i : Instr) (rest : List Word), decode (fetchWords s) = .instr i rest →
    ∃ t, step s = .next t ∧
      (s.skip = .skipNext → ∀ a, t.readMem a = s.readMem a) ∧
      (s.skip = .normal → ∀ a, storedCell i (s.setPc (s.pc + BitVec.ofNat 16 i.length)) ≠ some a →
        t.readMem a = s.readMem a)

/-- No instruction reads O unless an operand names it: two states that differ in O only are taken to states that
differ in O at most, and in O only if the instruction kept it (10_state.md R15: "No operation reads `O` implicitly"). -/
def Obligations.OverflowIsNotReadImplicitly : Prop :=
  ∀ (i : Instr) (s : State) (v : Word), Operand.o ∉ operandsOf i →
    ∃ t t', exec i s = .next t ∧ exec i (s.setO v) = .next t' ∧ t'.setO t.o = t ∧
      (t'.o = t.o ∨ (t.o = s.o ∧ t'.o = v))

/-- Call and return: whatever runs in between, if SP and the cell it points to are as the JSR left them, `SET PC, POP`
returns to the address after the JSR and SP has its value from before it, up to the JSR operand's own stack effect
(45_nonbasic.md R182, derived there). -/
def Obligations.ReturnAfterCall : Prop :=
  ∀ (b : Operand) (s : State), ∃ t, exec (.jsr b) s = .next t ∧
    ∀ u : State, u.sp = t.sp → u.readMem t.sp = t.readMem t.sp →
      ∃ v, exec (.set .pc .pop) u = .next v ∧ v.pc = s.pc ∧ v.sp = s.sp + stackShift b
end

