-- ==== Sys2Proof/Laws/Decode.lean ====
section
/-! SUPPORT. The small lemmas of the encoding: the fields of an assembled word, operand codes and operands, and
the opcode map. -/

namespace Sys2Proof

/-! ### Fields (30_encoding.md R50, R63) -/

@[simp] theorem opField_assemble (op : Opcode) (a b : OperandCode) : opField (assembleWord op a b) = op := by
  apply BitVec.eq_of_getLsbD_eq
  intro i hi
  simp only [opField, assembleWord, BitVec.getLsbD_extractLsb', BitVec.getLsbD_append]
  simp [hi]

@[simp] theorem aField_assemble (op : Opcode) (a b : OperandCode) : aField (assembleWord op a b) = a := by
  apply BitVec.eq_of_getLsbD_eq
  intro i hi
  simp only [aField, assembleWord, BitVec.getLsbD_extractLsb', BitVec.getLsbD_append]
  simp [hi]

@[simp] theorem bField_assemble (op : Opcode) (a b : OperandCode) : bField (assembleWord op a b) = b := by
  apply BitVec.eq_of_getLsbD_eq
  intro i hi
  simp only [bField, assembleWord, BitVec.getLsbD_extractLsb', BitVec.getLsbD_append]
  rw [if_neg (by omega), if_neg (by omega), show 10 + i - 4 - 6 = i by omega]
  simp [hi]

/-- A word is assembled from its own fields. -/
theorem assemble_fields (w : Word) : assembleWord (opField w) (aField w) (bField w) = w := by
  apply BitVec.eq_of_getLsbD_eq
  intro i hi
  simp only [opField, aField, bField, assembleWord, BitVec.getLsbD_extractLsb', BitVec.getLsbD_append]
  by_cases h4 : i < 4
  · simp [h4]
  · by_cases h10 : i - 4 < 6
    · simp [h4, h10, (by omega : 4 + (i - 4) = i)]
    · simp [h4, h10, (by omega : 10 + (i - 4 - 6) = i), (by omega : i - 4 - 6 < 6)]

/-- An assembled word as a number (30_encoding.md R63). -/
theorem assembleWord_toNat (op : Opcode) (a b : OperandCode) :
    (assembleWord op a b).toNat = b.toNat * 1024 + a.toNat * 16 + op.toNat := by
  have h : (assembleWord op a b).toNat = (b.toNat <<< 6 ||| a.toNat) <<< 4 ||| op.toNat := by
    unfold assembleWord
    rw [BitVec.toNat_append, BitVec.toNat_append]
  rw [h, ← Nat.shiftLeft_add_eq_or_of_lt op.isLt, ← Nat.shiftLeft_add_eq_or_of_lt a.isLt, Nat.shiftLeft_eq,
    Nat.shiftLeft_eq]
  omega

/-! ### Operand codes (30_encoding.md R57) -/

/-- A claim about every operand code holds if it holds of each of the 64 numbers. -/
theorem OperandCode.forall_of_nat {P : OperandCode → Prop} (h : ∀ n : Nat, n < 64 → P (BitVec.ofNat 6 n))
    (c : OperandCode) : P c := by
  have := h c.toNat c.isLt
  simpa using this

/-- A code that takes no extra word gives one operand, whatever word follows. -/
theorem operandOf_of_no_extra (c : OperandCode) (nw : Word) (h : needsExtra c = 0) : operandOf c nw = operandOf c 0#16 := by
  revert h
  refine OperandCode.forall_of_nat (P := fun c => needsExtra c = 0 → operandOf c nw = operandOf c 0#16) ?_ c
  intro n hn
  interval_cases n <;> intro h <;> first | rfl | exact absurd h (by decide)

theorem needsExtra_le_one (c : OperandCode) : needsExtra c ≤ 1 := by
  unfold needsExtra
  split <;> omega

/-- The code of an operand read from a code is that code. -/
@[simp] theorem code_operandOf (c : OperandCode) (nw : Word) : (operandOf c nw).code = c := by
  have h : (operandOf c nw).code = (operandOf c 0#16).code := by
    unfold operandOf
    repeat' split
    all_goals rfl
  rw [h]
  clear h
  revert c
  decide

/-- The extra words of an operand read from a code: the word given, if the code takes one. -/
theorem extraWords_operandOf (c : OperandCode) (nw : Word) :
    (operandOf c nw).extraWords = if needsExtra c = 0 then [] else [nw] := by
  have h : (operandOf c nw).extraWords = (operandOf c 0#16).extraWords.map (fun _ => nw) := by
    unfold operandOf
    repeat' split
    all_goals rfl
  have h' : ∀ c : OperandCode, (operandOf c 0#16).extraWords = if needsExtra c = 0 then [] else [0#16] := by decide
  rw [h, h']
  split <;> rfl

/-- An operand is read back from its code and its extra word. -/
theorem operandOf_code (op : Operand) (nw : Word) (h : op.extraWords = [] ∨ op.extraWords = [nw]) :
    operandOf op.code nw = op := by
  cases op with
  | reg r => cases r <;> rfl
  | indirect r => cases r <;> rfl
  | indexed r w =>
    obtain rfl : w = nw := by simpa [Operand.extraWords] using h
    rw [show (Operand.indexed r w).code = (Operand.indexed r 0#16).code from rfl]
    cases r <;> rfl
  | nextIndirect w =>
    obtain rfl : w = nw := by simpa [Operand.extraWords] using h
    rw [show (Operand.nextIndirect w).code = 0x1E#6 from rfl]
    rfl
  | nextLiteral w =>
    obtain rfl : w = nw := by simpa [Operand.extraWords] using h
    rw [show (Operand.nextLiteral w).code = 0x1F#6 from rfl]
    rfl
  | smallLiteral n =>
    have hn : (Operand.smallLiteral n).code.toNat / 8 ≠ 0 ∧ (Operand.smallLiteral n).code.toNat / 8 ≠ 1 ∧
        (Operand.smallLiteral n).code.toNat / 8 ≠ 2 ∧ (Operand.smallLiteral n).code.toNat / 8 ≠ 3 ∧
        smallLiteralBits (Operand.smallLiteral n).code = n := by
      clear h
      revert n
      decide
    unfold operandOf
    split <;> simp_all
  | pop => rfl
  | peek => rfl
  | push => rfl
  | sp => rfl
  | pc => rfl
  | o => rfl

theorem Operand.extraWords_length (op : Operand) : op.extraWords.length = needsExtra op.code := by
  cases op with
  | reg r => cases r <;> rfl
  | indirect r => cases r <;> rfl
  | indexed r nw => cases r <;> rfl
  | smallLiteral n => revert n; decide
  | pop => rfl
  | peek => rfl
  | push => rfl
  | sp => rfl
  | pc => rfl
  | o => rfl
  | nextIndirect nw => rfl
  | nextLiteral nw => rfl

/-- The decoder reads an operand back from its code and extra words. -/
theorem decodeOperand_code (op : Operand) (rest : List Word) :
    decodeOperand op.code (op.extraWords ++ rest) = some (op, rest) := by
  have hlen := op.extraWords_length
  unfold decodeOperand
  split
  · rename_i h0
    have hnil : op.extraWords = [] := List.length_eq_zero_iff.1 (hlen.trans h0)
    rw [operandOf_code op 0#16 (.inl hnil), hnil, List.nil_append]
  · rename_i h0
    have hone : op.extraWords.length = 1 := by have := needsExtra_le_one op.code; omega
    obtain ⟨nw, hnw⟩ := List.length_eq_one_iff.1 hone
    rw [hnw]
    simp [operandOf_code op nw (.inr hnw)]

/-- What the decoder reads as an operand has that code, and its extra words stood at the front of the list. -/
theorem code_decodeOperand {c : OperandCode} {ws rest : List Word} {op : Operand}
    (h : decodeOperand c ws = some (op, rest)) : op.code = c ∧ op.extraWords ++ rest = ws := by
  unfold decodeOperand at h
  split at h
  · rename_i h0
    simp only [Option.some.injEq, Prod.mk.injEq] at h
    obtain ⟨rfl, rfl⟩ := h
    simp [extraWords_operandOf, h0]
  · rename_i h0
    cases ws with
    | nil => simp at h
    | cons nw tl =>
      simp only [Option.some.injEq, Prod.mk.injEq] at h
      obtain ⟨rfl, rfl⟩ := h
      simp [extraWords_operandOf, h0]

/-- An operand decodes from any list that is long enough, and takes its extra word, if any, from it. -/
theorem decodeOperand_some (c : OperandCode) (ws : List Word) (h : needsExtra c ≤ ws.length) :
    ∃ op, decodeOperand c ws = some (op, ws.drop (needsExtra c)) := by
  unfold decodeOperand
  split
  · rename_i h0
    exact ⟨_, by rw [h0]; rfl⟩
  · rename_i h0
    have h1 : needsExtra c = 1 := by have := needsExtra_le_one c; omega
    cases ws with
    | nil => rw [h1] at h; exact absurd h (by simp)
    | cons nw tl => exact ⟨_, by rw [h1]; rfl⟩

/-- The operand decoded from a list that goes on, and what is left of the list. -/
theorem decodeOperand_cons (c : OperandCode) (w : Word) (ws : List Word) :
    decodeOperand c (w :: ws) = some (operandOf c w, (w :: ws).drop (needsExtra c)) := by
  unfold decodeOperand
  split
  · rename_i h
    rw [operandOf_of_no_extra c w h, h]
    rfl
  · have h1 : needsExtra c = 1 := by have := needsExtra_le_one c; omega
    rw [h1]
    rfl

/-! ### The opcode map (30_encoding.md R54) -/

/-- Every opcode but 0x0 is basic. -/
theorem basicForm_none (op : Opcode) : basicForm op = none ↔ op = 0x0#4 := by
  revert op
  decide

/-- A basic opcode's instruction is encoded with that opcode. -/
theorem encode_basicForm {op : Opcode} {form : Operand → Operand → Instr} (h : basicForm op = some form)
    (d s : Operand) : encode (form d s) = encodeBasic op d s ∧ (form d s).wellFormed = true := by
  have hn : ∀ op : Opcode, op = BitVec.ofNat 4 op.toNat := fun op => by simp
  rw [hn op]
  unfold basicForm at h
  split at h <;> simp only [Option.some.injEq, reduceCtorEq] at h <;> subst h <;>
    rename_i e <;> rw [e] <;> exact ⟨rfl, rfl⟩

end Sys2Proof
end

