-- ==== Sys2Proof/Laws/State.lean ====
section
/-! SUPPORT. One lemma per field per update of the state, true by `rfl`, and the register file's read and
write laws, so that no later proof unfolds a record update. -/

namespace Sys2Proof.Machine

variable (s : State)

@[simp] theorem State.setReg_regs (r : Reg) (v : Word) : (s.setReg r v).regs = s.regs.set r v := rfl
@[simp] theorem State.setReg_pc (r : Reg) (v : Word) : (s.setReg r v).pc = s.pc := rfl
@[simp] theorem State.setReg_sp (r : Reg) (v : Word) : (s.setReg r v).sp = s.sp := rfl
@[simp] theorem State.setReg_o (r : Reg) (v : Word) : (s.setReg r v).o = s.o := rfl
@[simp] theorem State.setReg_skip (r : Reg) (v : Word) : (s.setReg r v).skip = s.skip := rfl
@[simp] theorem State.setReg_mem (r : Reg) (v : Word) : (s.setReg r v).mem = s.mem := rfl

@[simp] theorem State.setPc_regs (v : Word) : (s.setPc v).regs = s.regs := rfl
@[simp] theorem State.setPc_pc (v : Word) : (s.setPc v).pc = v := rfl
@[simp] theorem State.setPc_sp (v : Word) : (s.setPc v).sp = s.sp := rfl
@[simp] theorem State.setPc_o (v : Word) : (s.setPc v).o = s.o := rfl
@[simp] theorem State.setPc_skip (v : Word) : (s.setPc v).skip = s.skip := rfl
@[simp] theorem State.setPc_mem (v : Word) : (s.setPc v).mem = s.mem := rfl

@[simp] theorem State.setSp_regs (v : Word) : (s.setSp v).regs = s.regs := rfl
@[simp] theorem State.setSp_pc (v : Word) : (s.setSp v).pc = s.pc := rfl
@[simp] theorem State.setSp_sp (v : Word) : (s.setSp v).sp = v := rfl
@[simp] theorem State.setSp_o (v : Word) : (s.setSp v).o = s.o := rfl
@[simp] theorem State.setSp_skip (v : Word) : (s.setSp v).skip = s.skip := rfl
@[simp] theorem State.setSp_mem (v : Word) : (s.setSp v).mem = s.mem := rfl

@[simp] theorem State.setO_regs (v : Word) : (s.setO v).regs = s.regs := rfl
@[simp] theorem State.setO_pc (v : Word) : (s.setO v).pc = s.pc := rfl
@[simp] theorem State.setO_sp (v : Word) : (s.setO v).sp = s.sp := rfl
@[simp] theorem State.setO_o (v : Word) : (s.setO v).o = v := rfl
@[simp] theorem State.setO_skip (v : Word) : (s.setO v).skip = s.skip := rfl
@[simp] theorem State.setO_mem (v : Word) : (s.setO v).mem = s.mem := rfl

@[simp] theorem State.setSkip_regs (v : Skip) : (s.setSkip v).regs = s.regs := rfl
@[simp] theorem State.setSkip_pc (v : Skip) : (s.setSkip v).pc = s.pc := rfl
@[simp] theorem State.setSkip_sp (v : Skip) : (s.setSkip v).sp = s.sp := rfl
@[simp] theorem State.setSkip_o (v : Skip) : (s.setSkip v).o = s.o := rfl
@[simp] theorem State.setSkip_skip (v : Skip) : (s.setSkip v).skip = v := rfl
@[simp] theorem State.setSkip_mem (v : Skip) : (s.setSkip v).mem = s.mem := rfl

@[simp] theorem State.writeMem_regs (addr v : Word) : (s.writeMem addr v).regs = s.regs := rfl
@[simp] theorem State.writeMem_pc (addr v : Word) : (s.writeMem addr v).pc = s.pc := rfl
@[simp] theorem State.writeMem_sp (addr v : Word) : (s.writeMem addr v).sp = s.sp := rfl
@[simp] theorem State.writeMem_o (addr v : Word) : (s.writeMem addr v).o = s.o := rfl
@[simp] theorem State.writeMem_skip (addr v : Word) : (s.writeMem addr v).skip = s.skip := rfl
@[simp] theorem State.writeMem_mem (addr v : Word) : (s.writeMem addr v).mem = Memory.writeWord s.mem addr v := rfl

/-! ### Words of memory and general registers through an update -/

@[simp] theorem State.setReg_readMem (r : Reg) (v : Word) (a : Word) : (s.setReg r v).readMem a = s.readMem a := rfl
@[simp] theorem State.setPc_readMem (v : Word) (a : Word) : (s.setPc v).readMem a = s.readMem a := rfl
@[simp] theorem State.setPc_reg (v : Word) (r' : Reg) : (s.setPc v).reg r' = s.reg r' := rfl
@[simp] theorem State.setSp_readMem (v : Word) (a : Word) : (s.setSp v).readMem a = s.readMem a := rfl
@[simp] theorem State.setSp_reg (v : Word) (r' : Reg) : (s.setSp v).reg r' = s.reg r' := rfl
@[simp] theorem State.setO_readMem (v : Word) (a : Word) : (s.setO v).readMem a = s.readMem a := rfl
@[simp] theorem State.setO_reg (v : Word) (r' : Reg) : (s.setO v).reg r' = s.reg r' := rfl
@[simp] theorem State.setSkip_readMem (v : Skip) (a : Word) : (s.setSkip v).readMem a = s.readMem a := rfl
@[simp] theorem State.setSkip_reg (v : Skip) (r' : Reg) : (s.setSkip v).reg r' = s.reg r' := rfl
@[simp] theorem State.writeMem_reg (addr v : Word) (r' : Reg) : (s.writeMem addr v).reg r' = s.reg r' := rfl

/-! ### The register file -/

@[simp] theorem RegFile.get_set_same (f : RegFile) (r : Reg) (v : Word) : (f.set r v).get r = v := by
  cases r <;> rfl

theorem RegFile.get_set_other (f : RegFile) (v : Word) : ∀ {r r' : Reg}, r ≠ r' → (f.set r v).get r' = f.get r'
  | r, r', h => by cases r <;> cases r' <;> first | rfl | exact absurd rfl h

@[simp] theorem State.setReg_reg_same (r : Reg) (v : Word) : (s.setReg r v).reg r = v :=
  RegFile.get_set_same s.regs r v

theorem State.setReg_reg_other {r r' : Reg} (v : Word) (h : r ≠ r') : (s.setReg r v).reg r' = s.reg r' :=
  RegFile.get_set_other s.regs v h

/-! ### Two updates of one field, and updates that change nothing -/

@[simp] theorem State.setPc_setPc (v w : Word) : (s.setPc v).setPc w = s.setPc w := rfl
@[simp] theorem State.setSp_setSp (v w : Word) : (s.setSp v).setSp w = s.setSp w := rfl
@[simp] theorem State.setO_setO (v w : Word) : (s.setO v).setO w = s.setO w := rfl
@[simp] theorem State.setPc_same : s.setPc s.pc = s := rfl
@[simp] theorem State.setSp_same : s.setSp s.sp = s := rfl
@[simp] theorem State.setO_same : s.setO s.o = s := rfl
@[simp] theorem State.setSkip_same : s.setSkip s.skip = s := rfl

end Sys2Proof.Machine
end

