-- ==== Sys2Proof/Laws/Memory.lean ====
section
/-! SUPPORT. The laws of memory: a read after a write, byte by byte and word by word, on every list; the
canonical form is kept by every operation; canonical memories that read alike are equal. -/

namespace Sys2Proof.Machine

open Memory

/-! ### Bytes -/

theorem Memory.readByte_erase (m : Memory) (k k' : Nat) :
    readByte (eraseByte m k) k' = if k' = k then Config.unlistedByte else readByte m k' := by
  induction m with
  | nil => simp [eraseByte, readByte]
  | cons e m ih =>
    obtain ⟨j, v⟩ := e
    by_cases hj : j = k
    · subst hj
      by_cases hk : k' = j
      · subst hk; simpa [eraseByte] using ih
      · simp [eraseByte, readByte, ih, hk, Ne.symm hk]
    · by_cases hk : j = k'
      · subst hk; simp [eraseByte, readByte, hj]
      · simp [eraseByte, readByte, ih, hj, hk]

theorem Memory.readByte_insert (m : Memory) (k k' : Nat) (v : BitVec 8) (h : readByte m k = Config.unlistedByte)
    (hm : ∀ e ∈ m, e.1 ≠ k) :
    readByte (insertByte m k v) k' = if k' = k then v else readByte m k' := by
  induction m with
  | nil =>
    by_cases hk : k' = k
    · simp [insertByte, readByte, hk]
    · simp [insertByte, readByte, hk, Ne.symm hk]
  | cons e m ih =>
    obtain ⟨j, u⟩ := e
    have hj : j ≠ k := hm (j, u) (by simp)
    have hm' : ∀ e ∈ m, e.1 ≠ k := fun e he => hm e (by simp [he])
    have h' : readByte m k = Config.unlistedByte := by simpa [readByte, hj] using h
    by_cases hlt : k < j
    · by_cases hk : k' = k
      · simp [insertByte, hlt, readByte, hk]
      · simp [insertByte, hlt, readByte, hk, Ne.symm hk]
    · by_cases hk : j = k'
      · subst hk; simp [insertByte, hlt, readByte, hj]
      · simp [insertByte, hlt, readByte, hk, ih h' hm']

theorem Memory.erase_no_key (m : Memory) (k : Nat) : ∀ e ∈ eraseByte m k, e.1 ≠ k := by
  induction m with
  | nil => simp [eraseByte]
  | cons e m ih =>
    obtain ⟨j, v⟩ := e
    by_cases hj : j = k
    · simpa [eraseByte, hj] using ih
    · simp only [eraseByte, hj, if_false, List.mem_cons]
      rintro e (rfl | he)
      · exact hj
      · exact ih e he

theorem Memory.readByte_write (m : Memory) (k k' : Nat) (v : BitVec 8) :
    readByte (writeByte m k v) k' = if k' = k then v else readByte m k' := by
  unfold writeByte
  by_cases hv : v = Config.unlistedByte
  · simp [hv, readByte_erase]
  · rw [if_neg hv, readByte_insert _ _ _ _ (by simp [readByte_erase]) (erase_no_key m k), readByte_erase]
    by_cases hk : k' = k <;> simp [hk]

/-! ### Words -/

theorem append_halves (v : Word) : v.extractLsb' 8 8 ++ v.extractLsb' 0 8 = v := by
  apply BitVec.eq_of_getLsbD_eq
  intro i hi
  rw [BitVec.getLsbD_append]
  by_cases h : i < 8
  · simp [h]
  · simp [h, (by omega : 8 + (i - 8) = i)]; omega

theorem Memory.readWord_writeWord (m : Memory) (a a' v : Word) :
    readWord (writeWord m a v) a' = if a' = a then v else readWord m a' := by
  unfold readWord writeWord
  simp only [readByte_write]
  by_cases h : a' = a
  · subst h
    have h1 : 2 * a'.toNat ≠ 2 * a'.toNat + 1 := by omega
    simp only [if_true, h1, if_false]
    exact append_halves v
  · have hn : a'.toNat ≠ a.toNat := fun e => h (BitVec.eq_of_toNat_eq e)
    have h2 : 2 * a'.toNat + 1 ≠ 2 * a.toNat := by omega
    have h3 : 2 * a'.toNat ≠ 2 * a.toNat + 1 := by omega
    have h4 : 2 * a'.toNat ≠ 2 * a.toNat := by omega
    simp [h, h2, h3, h4]

/-- A read after a write, on the state (20_memory.md R30, R31). -/
theorem State.readMem_writeMem (s : State) (a a' v : Word) :
    (s.writeMem a v).readMem a' = if a' = a then v else s.readMem a' :=
  readWord_writeWord s.mem a a' v

@[simp] theorem State.readMem_writeMem_same (s : State) (a v : Word) : (s.writeMem a v).readMem a = v := by
  simp [State.readMem_writeMem]

@[simp] theorem Memory.readWord_nil (a : Word) : readWord [] a = 0#16 := by
  simp [readWord, readByte, Config.unlistedByte]

/-! ### The canonical form -/

theorem Memory.wfFrom_mono (m : Memory) {lo lo' : Nat} (h : lo' ≤ lo) (hm : wfFrom lo m = true) :
    wfFrom lo' m = true := by
  cases m with
  | nil => rfl
  | cons e m =>
    obtain ⟨k, v⟩ := e
    simp only [wfFrom, Bool.and_eq_true, decide_eq_true_eq] at hm ⊢
    exact ⟨⟨⟨by omega, hm.1.1.2⟩, hm.1.2⟩, hm.2⟩

theorem Memory.wfFrom_erase (m : Memory) (lo k : Nat) (hm : wfFrom lo m = true) : wfFrom lo (eraseByte m k) = true := by
  induction m generalizing lo with
  | nil => rfl
  | cons e m ih =>
    obtain ⟨j, v⟩ := e
    simp only [wfFrom, Bool.and_eq_true, decide_eq_true_eq] at hm
    by_cases hj : j = k
    · simp only [eraseByte, hj, if_true]
      exact ih lo (wfFrom_mono m (by omega) hm.2)
    · simp only [eraseByte, hj, if_false, wfFrom, Bool.and_eq_true, decide_eq_true_eq]
      exact ⟨hm.1, ih (j + 1) hm.2⟩

theorem Memory.wfFrom_insert (m : Memory) (lo k : Nat) (v : BitVec 8) (hm : wfFrom lo m = true) (hlo : lo ≤ k)
    (hk : k < 2 * Config.memWords) (hv : v ≠ Config.unlistedByte) (hkey : ∀ e ∈ m, e.1 ≠ k) :
    wfFrom lo (insertByte m k v) = true := by
  induction m generalizing lo with
  | nil => simp [insertByte, wfFrom, hlo, hk, hv]
  | cons e m ih =>
    obtain ⟨j, u⟩ := e
    have hj : j ≠ k := hkey (j, u) (by simp)
    simp only [wfFrom, Bool.and_eq_true, decide_eq_true_eq] at hm
    by_cases hlt : k < j
    · simp only [insertByte, hlt, if_true, wfFrom, Bool.and_eq_true, decide_eq_true_eq, bne_iff_ne]
      exact ⟨⟨⟨hlo, hk⟩, hv⟩, ⟨⟨hlt, hm.1.1.2⟩, by simpa using hm.1.2⟩, hm.2⟩
    · simp only [insertByte, hlt, if_false, wfFrom, Bool.and_eq_true, decide_eq_true_eq]
      exact ⟨hm.1, ih (j + 1) hm.2 (by omega) (fun e he => hkey e (by simp [he]))⟩

theorem Memory.wf_writeByte (m : Memory) (k : Nat) (v : BitVec 8) (hm : wf m = true) (hk : k < 2 * Config.memWords) :
    wf (writeByte m k v) = true := by
  unfold writeByte wf
  have he := wfFrom_erase m 0 k hm
  split
  · exact he
  · exact wfFrom_insert _ 0 k v he (Nat.zero_le k) hk ‹_› (erase_no_key m k)

/-- Every store keeps the canonical form (log 1). -/
theorem Memory.wf_writeWord (m : Memory) (a v : Word) (hm : wf m = true) : wf (writeWord m a v) = true := by
  have ha : a.toNat < 65536 := a.isLt
  unfold writeWord
  exact wf_writeByte _ _ _ (wf_writeByte m _ _ hm (by simp only [Config.memWords]; omega))
    (by simp only [Config.memWords]; omega)

/-- The reset memory has the canonical form. -/
theorem Memory.wf_reset : wf State.reset.mem = true := rfl

theorem Memory.readByte_below (m : Memory) {lo k : Nat} (hm : wfFrom lo m = true) (h : k < lo) :
    readByte m k = Config.unlistedByte := by
  induction m generalizing lo with
  | nil => rfl
  | cons e m ih =>
    obtain ⟨j, v⟩ := e
    simp only [wfFrom, Bool.and_eq_true, decide_eq_true_eq] at hm
    have hj : j ≠ k := by omega
    simp only [readByte, hj, if_false]
    exact ih hm.2 (by omega)

/-- In canonical form, memories that read alike at every key are equal lists. -/
theorem Memory.wfFrom_ext (m n : Memory) {lo : Nat} (hm : wfFrom lo m = true) (hn : wfFrom lo n = true)
    (h : ∀ k, readByte m k = readByte n k) : m = n := by
  induction m generalizing n lo with
  | nil =>
    cases n with
    | nil => rfl
    | cons e n =>
      obtain ⟨k, v⟩ := e
      simp only [wfFrom, Bool.and_eq_true, decide_eq_true_eq, bne_iff_ne] at hn
      exact absurd (by simpa [readByte] using (h k).symm) hn.1.2
  | cons e m ih =>
    obtain ⟨k, v⟩ := e
    simp only [wfFrom, Bool.and_eq_true, decide_eq_true_eq, bne_iff_ne] at hm
    cases n with
    | nil => exact absurd (by simpa [readByte] using h k) hm.1.2
    | cons e' n =>
      obtain ⟨k', v'⟩ := e'
      simp only [wfFrom, Bool.and_eq_true, decide_eq_true_eq, bne_iff_ne] at hn
      have hkk : k = k' := by
        rcases Nat.lt_trichotomy k k' with hlt | heq | hgt
        · have hr := h k
          have hne : k' ≠ k := by omega
          simp only [readByte, if_true, if_neg hne] at hr
          exact absurd (hr.trans (readByte_below n hn.2 (by omega))) hm.1.2
        · exact heq
        · have hr := h k'
          have hne : k ≠ k' := by omega
          simp only [readByte, if_true, if_neg hne] at hr
          exact absurd (hr.symm.trans (readByte_below m hm.2 (by omega))) hn.1.2
      subst hkk
      have hv : v = v' := by simpa [readByte] using h k
      subst hv
      have hmn : m = n := by
        refine ih n hm.2 hn.2 (fun j => ?_)
        by_cases hj : k = j
        · subst hj
          rw [readByte_below m hm.2 (by omega), readByte_below n hn.2 (by omega)]
        · simpa [readByte, hj] using h j
      rw [hmn]

end Sys2Proof.Machine
end

