-- ==== Sys2Proof/Laws/Operands.lean ====
section
/-! SUPPORT. The location resolver: what reading gives after a write, what resolving does to the state, and that a
suppressed instruction does nothing. -/

namespace Sys2Proof.Machine

/-! ### Reading through updates of PC, SP, O and the skip state -/

section
variable (s : State) (v : Word) (k : Skip)

@[simp] theorem State.setPc_locOf (op : Operand) : (s.setPc v).locOf op = s.locOf op := by cases op <;> rfl
@[simp] theorem State.setO_locOf (op : Operand) : (s.setO v).locOf op = s.locOf op := by cases op <;> rfl
@[simp] theorem State.setSkip_locOf (op : Operand) : (s.setSkip k).locOf op = s.locOf op := by cases op <;> rfl

end

/-! ### Locations -/

/-- What any Location reads after a write: the value written if it is the one written to, else what it read before;
a write to a literal changes nothing (40_operands.md R71, R72). -/
theorem State.locRead_locWrite (s : State) (loc loc' : Location) (v : Word) :
    (s.locWrite loc v).locRead loc' =
      if loc = loc' then (match loc with | .lit u => u | .reg _ => v | .mem _ => v) else s.locRead loc' := by
  cases loc with
  | lit u =>
    by_cases h : Location.lit u = loc'
    · subst h; simp [State.locRead]
    · simp [State.locWrite, h]
  | mem a =>
    cases loc' with
    | lit w => simp [State.locRead]
    | mem a' =>
      by_cases h : a = a'
      · subst h; simp [State.locWrite, State.locRead]
      · simp [State.locWrite, State.locRead, State.readMem_writeMem, h, Ne.symm h]
    | reg id => cases id <;> simp [State.locWrite, State.locRead]
  | reg id =>
    cases loc' with
    | lit w => simp [State.locRead]
    | mem a' => cases id <;> simp [State.locWrite, State.locRead]
    | reg id' =>
      cases id with
      | gpr r =>
        cases id' with
        | gpr r' =>
          by_cases h : r = r'
          · subst h; simp [State.locWrite, State.locRead]
          · simp [State.locWrite, State.locRead, State.setReg_reg_other, h]
        | pc => simp [State.locWrite, State.locRead]
        | sp => simp [State.locWrite, State.locRead]
        | o => simp [State.locWrite, State.locRead]
      | pc => cases id' <;> simp [State.locWrite, State.locRead]
      | sp => cases id' <;> simp [State.locWrite, State.locRead]
      | o => cases id' <;> simp [State.locWrite, State.locRead]

@[simp] theorem State.locWrite_skip (s : State) (loc : Location) (v : Word) : (s.locWrite loc v).skip = s.skip := by
  cases loc with
  | reg id => cases id <;> rfl
  | mem a => rfl
  | lit u => rfl

/-- An operand resolves to a literal exactly when it is one (41_tick_sequencer.md R103). -/
theorem State.locOf_isLiteral (s : State) (op : Operand) : isLiteral op = true ↔ ∃ v, s.locOf op = .lit v := by
  cases op <;> simp [isLiteral, State.locOf]

/-! ### Resolution -/

@[simp] theorem State.resolveEffect_commit (s : State) (op : Operand) :
    s.resolveEffect op true = s.setSp (s.sp + stackShift op) := rfl

@[simp] theorem State.resolveEffect_suppressed (s : State) (op : Operand) : s.resolveEffect op false = s := rfl

@[simp] theorem resolveBoth_dst (d b : Operand) (c : Bool) (s : State) : (resolveBoth d b c s).dst = s.locOf d := rfl

/-- The state after both operands are resolved: SP has moved by both, and nothing else (R88, R90). -/
@[simp] theorem resolveBoth_state (d b : Operand) (s : State) :
    (resolveBoth d b true s).state = s.setSp (s.sp + stackShift d + stackShift b) := rfl

@[simp] theorem resolveBoth_src (d b : Operand) (s : State) :
    (resolveBoth d b true s).src = (s.setSp (s.sp + stackShift d)).locOf b := rfl

@[simp] theorem suppressBasic_eq (d b : Operand) (s : State) : suppressBasic d b s = s := rfl

@[simp] theorem suppressNonBasic_eq (b : Operand) (s : State) : suppressNonBasic b s = s := rfl

/-- A suppressed instruction changes nothing in the state at dispatch (R103). -/
@[simp] theorem suppress_eq (i : Instr) (s : State) : suppress i s = s := by cases i <;> rfl

end Sys2Proof.Machine
end

