-- ==== Sys2Proof/Laws/Exec.lean ====
section
/-! SUPPORT. One lemma per template that says once everything the template does; a proof about an instruction
cites these and unfolds nothing below them. -/

namespace Sys2Proof.Machine

/-- The write-back of R120, read back: every Location, then the skip state. -/
theorem writeBack_locRead (D : Location) (r : AluResult) (s : State) (loc : Location) :
    (writeBack D r s).locRead loc =
      if loc = .reg .o then r.overflow.getD ((s.locWrite D r.result).locRead loc)
      else (s.locWrite D r.result).locRead loc := by
  unfold writeBack
  cases r.overflow with
  | none => by_cases h : loc = .reg .o <;> simp [h]
  | some v =>
    cases loc with
    | reg id => cases id <;> simp [State.locRead]
    | mem a => simp [State.locRead]
    | lit u => simp [State.locRead]

@[simp] theorem writeBack_skip (D : Location) (r : AluResult) (s : State) : (writeBack D r s).skip = s.skip := by
  unfold writeBack
  cases r.overflow <;> simp

/-- Everything a dispatched opcode 0x1 to 0xB does (42_move_arith.md R120). -/
theorem aluTemplate_effect (f : Word → Word → AluResult) (d b : Operand) (s : State) (h : isLiteral d = false) :
    BasicEffect d b s
      (aluTemplate f (resolveBoth d b true s).dst (resolveBoth d b true s).src (resolveBoth d b true s).state)
      (f (destValue d b s) (sourceValue d b s)).result (f (destValue d b s) (sourceValue d b s)).overflow := by
  have hlit : ∀ v, s.locOf d ≠ .lit v := fun v hv => by
    have := (s.locOf_isLiteral d).2 ⟨v, hv⟩
    rw [h] at this
    exact Bool.noConfusion this
  unfold aluTemplate destValue sourceValue
  generalize f _ _ = r
  have key : ∀ loc, (∀ v, loc ≠ .lit v) → ((resolveBoth d b true s).state.locWrite (s.locOf d) r.result).locRead loc =
      if s.locOf d = loc then r.result else (resolveBoth d b true s).state.locRead loc := by
    intro loc hloc
    rw [State.locRead_locWrite]
    split
    · rename_i e
      cases hl : s.locOf d with
      | lit v => exact absurd hl (hlit v)
      | reg id => rfl
      | mem a => rfl
    · rfl
  have read : ∀ loc, (∀ v, loc ≠ .lit v) →
      (writeBack (s.locOf d) r (resolveBoth d b true s).state).locRead loc =
        if loc = .reg .o then r.overflow.getD (if s.locOf d = loc then r.result else (resolveBoth d b true s).state.locRead loc)
        else if s.locOf d = loc then r.result else (resolveBoth d b true s).state.locRead loc := by
    intro loc hloc
    rw [writeBack_locRead, key loc hloc]
  constructor
  · intro q
    simpa [State.locRead] using read (.reg (.gpr q)) (by simp)
  · simpa [State.locRead] using read (.reg .pc) (by simp)
  · simpa [State.locRead] using read (.reg .sp) (by simp)
  · simpa [State.locRead] using read (.reg .o) (by simp)
  · intro a
    simpa [State.locRead] using read (.mem a) (by simp)
  · simp

/-- Everything a dispatched opcode 0xC to 0xF does (44_conditional.md R160). -/
theorem condTemplate_effect (cond : Word → Word → Bool) (d b : Operand) (s : State) :
    CondEffect d b s
      (condTemplate cond (resolveBoth d b true s).dst (resolveBoth d b true s).src (resolveBoth d b true s).state)
      (cond (destValue d b s) (sourceValue d b s) = true) := by
  unfold condTemplate destValue sourceValue
  constructor <;> intros <;> split <;> simp_all

/-- Everything a dispatched JSR does (45_nonbasic.md R180). -/
theorem opJsr_effect (b : Operand) (s : State) : JsrEffect b s (opJsr (s.locOf b) (s.resolveEffect b true)) := by
  constructor
  · intro r; rfl
  · unfold opJsr jsrTarget jsrAddress
    cases hb : s.locOf b with
    | lit v => simp [State.pushWord, State.locRead]
    | mem a => simp [State.pushWord, State.locRead, State.readMem_writeMem]
    | reg id => cases id <;> simp [State.pushWord, State.locRead]
  · rfl
  · rfl
  · intro a
    exact State.readMem_writeMem _ _ _ _
  · rfl

/-- A literal destination suppresses a non-conditional instruction (41_tick_sequencer.md R103). -/
theorem execNonConditional_literal (body : Location → Location → State → State) (d b : Operand) (s : State)
    (h : isLiteral d = true) : execNonConditional body d b s = .next s := by
  simp [execNonConditional, h]

/-- Any other destination dispatches it. -/
theorem execNonConditional_dispatch (body : Location → Location → State → State) (d b : Operand) (s : State)
    (h : isLiteral d = false) :
    execNonConditional body d b s =
      .next (body (resolveBoth d b true s).dst (resolveBoth d b true s).src (resolveBoth d b true s).state) := by
  simp [execNonConditional, h]

/-- `exec` on an instruction of opcodes 0x1 to 0xB, in terms of its destination, source and operation. -/
theorem exec_alu {i : Instr} {d b : Operand} {f : Word → Word → AluResult} (h : aluOf i = some (d, b, f)) (s : State) :
    exec i s = execNonConditional (aluTemplate f) d b s := by
  cases i <;> simp only [aluOf, Option.some.injEq, Prod.mk.injEq, reduceCtorEq] at h <;> obtain ⟨rfl, rfl, rfl⟩ := h <;> rfl

/-- Everything an instruction of opcodes 0x1 to 0xB does when its destination is no literal. -/
theorem exec_alu_effect {i : Instr} {d b : Operand} {f : Word → Word → AluResult} (h : aluOf i = some (d, b, f))
    (s : State) (hd : isLiteral d = false) :
    ∃ t, exec i s = .next t ∧ BasicEffect d b s t (f (destValue d b s) (sourceValue d b s)).result
      (f (destValue d b s) (sourceValue d b s)).overflow :=
  ⟨_, by rw [exec_alu h, execNonConditional_dispatch _ _ _ _ hd], aluTemplate_effect f d b s hd⟩

/-- A condition may be put in another form. -/
theorem CondEffect.congr {d b : Operand} {s t : State} {P Q : Prop} (h : CondEffect d b s t P) (e : P ↔ Q) :
    CondEffect d b s t Q := by
  obtain rfl := propext e
  exact h

/-! ### The canonical form of memory is kept -/

theorem State.wf_locWrite (s : State) (loc : Location) (v : Word) (h : s.wf = true) : (s.locWrite loc v).wf = true := by
  cases loc with
  | reg id => cases id <;> exact h
  | mem a => exact Memory.wf_writeWord s.mem a v h
  | lit u => exact h

theorem wf_writeBack (D : Location) (r : AluResult) (s : State) (h : s.wf = true) : (writeBack D r s).wf = true := by
  unfold writeBack
  cases r.overflow <;> exact s.wf_locWrite D r.result h

theorem State.wf_pushWord (s : State) (v : Word) (h : s.wf = true) : (s.pushWord v).wf = true :=
  Memory.wf_writeWord s.mem _ v h

end Sys2Proof.Machine
end

