-- ==== Sys2Proof/Laws/HostOps.lean ====
section
/-! SUPPORT. The laws of `copyWords`, the copy behind `load`: what every word reads as after it, and that the
canonical form of memory is kept. -/

namespace Sys2Proof.Machine

/-- After a copy, the addresses it reaches hold the words copied and every other address is as before. -/
theorem Memory.readWord_copyWords (ws : List Word) (m : Memory) (k : Nat) (h : k + ws.length ≤ 65536) (a : Word) :
    (Memory.copyWords m k ws).readWord a =
      if k ≤ a.toNat ∧ a.toNat < k + ws.length then ws.getD (a.toNat - k) 0#16 else m.readWord a := by
  induction ws generalizing m k with
  | nil => simp [Memory.copyWords]
  | cons w ws ih =>
    have ha := a.isLt
    simp only [List.length_cons] at h ⊢
    rw [Memory.copyWords, ih _ _ (by omega), Memory.readWord_writeWord]
    by_cases hk : a.toNat = k
    · have e : a = BitVec.ofNat 16 k := by rw [← hk]; simp
      rw [if_neg (by omega), if_pos e, if_pos (by omega)]
      simp [hk]
    · have e : a ≠ BitVec.ofNat 16 k := by
        rintro rfl
        apply hk
        simp
        omega
      rw [if_neg e]
      by_cases h2 : k ≤ a.toNat ∧ a.toNat < k + (ws.length + 1)
      · rw [if_pos (by omega), if_pos h2, show a.toNat - k = a.toNat - (k + 1) + 1 by omega]
        simp
      · rw [if_neg (by omega), if_neg h2]

theorem Memory.wf_copyWords (ws : List Word) (m : Memory) (k : Nat) (h : Memory.wf m = true) :
    Memory.wf (Memory.copyWords m k ws) = true := by
  induction ws generalizing m k with
  | nil => exact h
  | cons w ws ih => exact ih _ _ (Memory.wf_writeWord m _ w h)

/-- `load` keeps the canonical form. -/
theorem State.wf_load (s : State) (image : List Word) (h : Memory.wf s.mem = true) :
    Memory.wf (s.load image).mem = true :=
  Memory.wf_copyWords _ _ _ h

end Sys2Proof.Machine
end

