-- ==== Sys2Proof/Laws/PerInstr.lean ====
section
/-! SUPPORT. A statement about every instruction as syntax, one lemma per constructor: an instruction has one to three
words, as its operands' codes say (30_encoding.md R56). -/

open Sys2Proof

/-- One to three words, one of them the instruction word and the others the extra words of its operands. -/
def Sys2Proof.Laws.EncodedLength.Statement (i : Instr) : Prop := 1 ≤ i.length ∧ i.length ≤ 3

theorem Sys2Proof.Laws.EncodedLength.basicWords (op : Opcode) (d s : Operand) :
    1 ≤ (encodeBasic op d s).length ∧ (encodeBasic op d s).length ≤ 3 := by
  have hd := needsExtra_le_one d.code
  have hs := needsExtra_le_one s.code
  simp only [encodeBasic, List.length_cons, List.length_append, Operand.extraWords_length]
  omega

theorem Sys2Proof.Laws.EncodedLength.nonBasicWords (subop : BitVec 6) (s : Operand) :
    1 ≤ (encodeNonBasic subop s).length ∧ (encodeNonBasic subop s).length ≤ 3 := by
  have hs := needsExtra_le_one s.code
  simp only [encodeNonBasic, List.length_cons, Operand.extraWords_length]
  omega

theorem Sys2Proof.Laws.EncodedLength.jsr (s : Operand) : Sys2Proof.Laws.EncodedLength.Statement (.jsr s) :=
  Sys2Proof.Laws.EncodedLength.nonBasicWords _ s
theorem Sys2Proof.Laws.EncodedLength.set (d s : Operand) : Sys2Proof.Laws.EncodedLength.Statement (.set d s) :=
  Sys2Proof.Laws.EncodedLength.basicWords _ d s
theorem Sys2Proof.Laws.EncodedLength.add (d s : Operand) : Sys2Proof.Laws.EncodedLength.Statement (.add d s) :=
  Sys2Proof.Laws.EncodedLength.basicWords _ d s
theorem Sys2Proof.Laws.EncodedLength.sub (d s : Operand) : Sys2Proof.Laws.EncodedLength.Statement (.sub d s) :=
  Sys2Proof.Laws.EncodedLength.basicWords _ d s
theorem Sys2Proof.Laws.EncodedLength.mul (d s : Operand) : Sys2Proof.Laws.EncodedLength.Statement (.mul d s) :=
  Sys2Proof.Laws.EncodedLength.basicWords _ d s
theorem Sys2Proof.Laws.EncodedLength.div (d s : Operand) : Sys2Proof.Laws.EncodedLength.Statement (.div d s) :=
  Sys2Proof.Laws.EncodedLength.basicWords _ d s
theorem Sys2Proof.Laws.EncodedLength.mod (d s : Operand) : Sys2Proof.Laws.EncodedLength.Statement (.mod d s) :=
  Sys2Proof.Laws.EncodedLength.basicWords _ d s
theorem Sys2Proof.Laws.EncodedLength.shl (d s : Operand) : Sys2Proof.Laws.EncodedLength.Statement (.shl d s) :=
  Sys2Proof.Laws.EncodedLength.basicWords _ d s
theorem Sys2Proof.Laws.EncodedLength.shr (d s : Operand) : Sys2Proof.Laws.EncodedLength.Statement (.shr d s) :=
  Sys2Proof.Laws.EncodedLength.basicWords _ d s
theorem Sys2Proof.Laws.EncodedLength.and (d s : Operand) : Sys2Proof.Laws.EncodedLength.Statement (.and d s) :=
  Sys2Proof.Laws.EncodedLength.basicWords _ d s
theorem Sys2Proof.Laws.EncodedLength.bor (d s : Operand) : Sys2Proof.Laws.EncodedLength.Statement (.bor d s) :=
  Sys2Proof.Laws.EncodedLength.basicWords _ d s
theorem Sys2Proof.Laws.EncodedLength.xor (d s : Operand) : Sys2Proof.Laws.EncodedLength.Statement (.xor d s) :=
  Sys2Proof.Laws.EncodedLength.basicWords _ d s
theorem Sys2Proof.Laws.EncodedLength.ife (d s : Operand) : Sys2Proof.Laws.EncodedLength.Statement (.ife d s) :=
  Sys2Proof.Laws.EncodedLength.basicWords _ d s
theorem Sys2Proof.Laws.EncodedLength.ifn (d s : Operand) : Sys2Proof.Laws.EncodedLength.Statement (.ifn d s) :=
  Sys2Proof.Laws.EncodedLength.basicWords _ d s
theorem Sys2Proof.Laws.EncodedLength.ifg (d s : Operand) : Sys2Proof.Laws.EncodedLength.Statement (.ifg d s) :=
  Sys2Proof.Laws.EncodedLength.basicWords _ d s
theorem Sys2Proof.Laws.EncodedLength.ifb (d s : Operand) : Sys2Proof.Laws.EncodedLength.Statement (.ifb d s) :=
  Sys2Proof.Laws.EncodedLength.basicWords _ d s
theorem Sys2Proof.Laws.EncodedLength.reservedNonbasic (subop : BitVec 6) (s : Operand) : Sys2Proof.Laws.EncodedLength.Statement (.reservedNonbasic subop s) :=
  Sys2Proof.Laws.EncodedLength.nonBasicWords _ s
end

