-- ==== Sys2Proof/Laws/Tick.lean ====
section
/-! SUPPORT. What the spec's own pseudocode of the resolver does, in terms of decoded operands. -/

namespace Sys2Proof.Machine

/-- `Resolve` on a raw code is the Location of the decoded operand, its extra word taken at PC, and its effect on SP
(40_operands.md R73 to R87). -/
theorem resolveCode_eq (c : OperandCode) (commit : Bool) (s : State) :
    resolveCode c commit s =
      (s.locOf (operandOf c (s.readMem s.pc)),
        (s.setPc (s.pc + BitVec.ofNat 16 (needsExtra c))).resolveEffect (operandOf c (s.readMem s.pc)) commit) := by
  revert commit s
  refine OperandCode.forall_of_nat (P := fun c => ∀ (commit : Bool) (s : State), resolveCode c commit s =
    (s.locOf (operandOf c (s.readMem s.pc)),
      (s.setPc (s.pc + BitVec.ofNat 16 (needsExtra c))).resolveEffect (operandOf c (s.readMem s.pc)) commit)) ?_ c
  intro n hn commit s
  have e : s.sp + 0xFFFF#16 = s.sp - 1#16 := by bv_omega
  interval_cases n <;>
    simp [resolveCode, operandOf, needsExtra, codeReg, Reg.ofIndex, nextWord, State.locOf, smallLiteralBits,
      State.resolveEffect, stackShift] <;>
    (cases commit <;> simp [e] <;> rfl)

/-- A code stands for a literal exactly from 0x1F on (41_tick_sequencer.md R103). -/
theorem isLiteral_operandOf (c : OperandCode) (nw : Word) : isLiteral (operandOf c nw) = decide (0x1F#6 ≤ c) := by
  refine OperandCode.forall_of_nat (P := fun c => isLiteral (operandOf c nw) = decide (0x1F#6 ≤ c)) ?_ c
  intro n hn
  interval_cases n <;> rfl

end Sys2Proof.Machine
end

