-- ==== Sys2Proof/Tests/Slice0.lean ====
section
/-! SUPPORT. Small tests of one step each, with the words and the results of spec/95_test_vectors.md, the checks of
well-formedness and of decoding, and for every statement with hypotheses a state and operands that meet them. -/

namespace Sys2Proof.Tests

open Sys2Proof
open Sys2Proof.Machine

/-! ### Helpers -/

/-- The machine the spec's vectors start from: reset, with A, B and O set and words placed from 0x0100 on. -/
def sample (words : List Word) (a b : Word) : State :=
  { State.reset with
    regs := { RegFile.reset with a := a, b := b }, pc := 0x0100#16, o := 0x1234#16,
    mem := Memory.copyWords [] 0x0100 words }

/-- The state after a step, if there is one. -/
def next (s : State) : Option State :=
  match step s with
  | .next t => some t
  | .fault _ => none
  | .refused _ => none

/-- A, O and PC after one step of `OP A, B` on two values. -/
def alu (word a b : Word) : Option (Word × Word × Word) :=
  (next (sample [word] a b)).map fun t => (t.regs.a, t.o, t.pc)

/-- The skip state, O and PC after one step of a test of A and B. -/
def cond (word a b : Word) : Option (Skip × Word × Word) :=
  (next (sample [word] a b)).map fun t => (t.skip, t.o, t.pc)

/-- The state of the spec's stack vectors. -/
def stackSample (words : List Word) : State :=
  ((((sample words 0x0300#16 0#16).setSp 0xFFF0#16).writeMem 0xFFEF#16 0x0400#16).writeMem 0xFFF0#16 0x0500#16)

/-! ### Well-formedness -/

theorem test_illformed_reserved_is_jsr : (Instr.reservedNonbasic 0x01#6 (.reg .a)).wellFormed = false := by decide

theorem test_wellformed_reserved : (Instr.reservedNonbasic 0x02#6 (.nextLiteral 0#16)).wellFormed = true := by decide

/-! ### Decoding: one word of every constructor (spec/95_test_vectors.md 2.2) -/

theorem test_decode_jsr : decode [0x6010#16] = .instr (.jsr .pop) [] := by decide

theorem test_decode_set : decode [0x4501#16, 0x0010#16, 0x0020#16] =
    .instr (.set (.indexed .a 0x0010#16) (.indexed .b 0x0020#16)) [] :=
  by decide

theorem test_decode_add : decode [0x5802#16, 0x0010#16] = .instr (.add (.reg .a) (.indexed .i 0x0010#16)) [] :=
  by decide

theorem test_decode_sub : decode [0x85C3#16] = .instr (.sub .pc (.smallLiteral 1#5)) [] := by decide

theorem test_decode_mul : decode [0x3CE4#16] = .instr (.mul (.indirect .i) (.indirect .j)) [] := by decide

theorem test_decode_div : decode [0x8005#16] = .instr (.div (.reg .a) (.smallLiteral 0#5)) [] := by decide

theorem test_decode_mod : decode [0x91D6#16] = .instr (.mod .o (.smallLiteral 4#5)) [] := by decide

theorem test_decode_shl : decode [0x8C07#16] = .instr (.shl (.reg .a) (.smallLiteral 3#5)) [] := by decide

theorem test_decode_shr : decode [0x91D8#16] = .instr (.shr .o (.smallLiteral 4#5)) [] := by decide

theorem test_decode_and : decode [0x8DD9#16] = .instr (.and .o (.smallLiteral 3#5)) [] := by decide

theorem test_decode_bor : decode [0x7C0A#16, 0x0FF0#16] = .instr (.bor (.reg .a) (.nextLiteral 0x0FF0#16)) [] :=
  by decide

theorem test_decode_xor : decode [0x747B#16] = .instr (.xor (.reg .j) .o) [] := by decide

theorem test_decode_ife : decode [0x79FC#16, 0x1000#16, 0x2000#16] =
    .instr (.ife (.nextLiteral 0x1000#16) (.nextIndirect 0x2000#16)) [] :=
  by decide

theorem test_decode_ifn : decode [0x906D#16] = .instr (.ifn (.reg .i) (.smallLiteral 4#5)) [] := by decide

theorem test_decode_ifg : decode [0x63FE#16] = .instr (.ifg (.smallLiteral 31#5) .pop) [] := by decide

theorem test_decode_ifb : decode [0xBC0F#16] = .instr (.ifb (.reg .a) (.smallLiteral 15#5)) [] := by decide

theorem test_decode_reservedNonbasic : decode [0x01F0#16] = .instr (.reservedNonbasic 0x1F#6 (.reg .a)) [] :=
  by decide

/-- The rejections are by name, for lists that end too early. -/
theorem test_decode_rejects : decode [] = .rejected .noInstructionWord ∧
    decode [0x01E1#16] = .rejected .noDestinationWord ∧ decode [0x7C01#16] = .rejected .noSourceWord := by decide

/-- A table word with operand words: the first word is the low one, and what `nbits` leaves out is zero. -/
theorem test_decodeTableWord : decodeTableWord 48 0x2000100079E1 =
    some (.set (.nextIndirect 0x1000#16) (.nextIndirect 0x2000#16)) ∧
    decodeTableWord 16 0x7C10 = some (.jsr (.nextLiteral 0#16)) ∧
    decodeTableWord 16 0x0000 = some (.reservedNonbasic 0#6 (.reg .a)) := by decide

/-- `withFetchWord` puts the instruction where the next step fetches. -/
theorem test_withFetchWord : decode (fetchWords (State.reset.withFetchWord 32 0x00057C01)) =
    .instr (.set (.reg .a) (.nextLiteral 0x0005#16)) [0#16] ∧
    (next (State.reset.withFetchWord 32 0x00057C01)).map (fun t => (t.regs.a, t.pc)) = some (0x0005#16, 0x0002#16) :=
  by decide

/-! ### One step (spec/95_test_vectors.md 1, 2.3 to 2.11) -/

/-- S1: `SET A, #5` from reset. -/
theorem test_set_from_reset : (next (State.reset.load [0x7C01#16, 0x0005#16])).map
    (fun t => (t.regs.a, t.pc, t.sp, t.o, t.skip)) = some (0x0005#16, 0x0002#16, 0xFFFF#16, 0x0000#16, .normal) :=
  by decide

/-- P13: both extra words, the destination's first. -/
theorem test_set_extra_words : (next ((sample [0x4501#16, 0x0010#16, 0x0020#16] 1#16 2#16).writeMem 0x0022#16 0x00CD#16)).map
    (fun t => (t.readMem 0x0011#16, t.pc)) = some (0x00CD#16, 0x0103#16) := by decide

theorem test_add_carries : alu 0x0402#16 0xFFFF#16 0xFFFF#16 = some (0xFFFE#16, 0x0001#16, 0x0101#16) := by decide

/-- O2: the carry stays in O when O is the destination. -/
theorem test_add_to_o : (next ((sample [0x85D2#16] 0#16 0#16).setO 0xFFFF#16)).map (fun t => t.o) = some 0x0001#16 :=
  by decide

theorem test_sub_borrows : alu 0x0403#16 0x0003#16 0x0005#16 = some (0xFFFE#16, 0xFFFF#16, 0x0101#16) := by decide

/-- P5: `SUB PC, 1` reads the advanced PC. -/
theorem test_sub_pc : (next (sample [0x85C3#16] 0#16 0#16)).map (fun t => (t.pc, t.o)) =
    some (0x0100#16, 0x0000#16) :=
  by decide

theorem test_mul_high_half : alu 0x0404#16 0xFFFF#16 0xFFFF#16 = some (0x0001#16, 0xFFFE#16, 0x0101#16) := by decide

/-- M12: a product of two cells. -/
theorem test_mul_cells : (next (((((sample [0x3CE4#16] 0#16 0#16).setReg .i 0x3000#16).setReg .j 0x3001#16).writeMem
    0x3000#16 0x0300#16).writeMem 0x3001#16 0x0300#16)).map (fun t => (t.readMem 0x3000#16, t.o)) =
    some (0x0000#16, 0x0009#16) := by decide

theorem test_div_fraction : alu 0x0405#16 0x8000#16 0x0003#16 = some (0x2AAA#16, 0xAAAA#16, 0x0101#16) := by decide

theorem test_div_by_zero : alu 0x0405#16 0x000A#16 0x0000#16 = some (0x0000#16, 0x0000#16, 0x0101#16) := by decide

theorem test_mod_keeps_o : alu 0x0406#16 0xFFFF#16 0x0100#16 = some (0x00FF#16, 0x1234#16, 0x0101#16) := by decide

theorem test_mod_by_zero : alu 0x0406#16 0x000A#16 0x0000#16 = some (0x0000#16, 0x0000#16, 0x0101#16) := by decide

theorem test_shl_past_width : alu 0x0407#16 0x1234#16 0x0011#16 = some (0x0000#16, 0x2468#16, 0x0101#16) := by decide

theorem test_shl_largest_count : alu 0x0407#16 0xFFFF#16 0xFFFF#16 = some (0x0000#16, 0x0000#16, 0x0101#16) :=
  by decide

theorem test_shr_left_aligned : alu 0x0408#16 0x1234#16 0x0004#16 = some (0x0123#16, 0x4000#16, 0x0101#16) :=
  by decide

theorem test_shr_past_width : alu 0x0408#16 0x1234#16 0x0011#16 = some (0x0000#16, 0x091A#16, 0x0101#16) := by decide

theorem test_and : alu 0x0409#16 0xF0F0#16 0x0FF0#16 = some (0x00F0#16, 0x1234#16, 0x0101#16) := by decide

theorem test_bor : alu 0x040A#16 0xF0F0#16 0x0FF0#16 = some (0xFFF0#16, 0x1234#16, 0x0101#16) := by decide

theorem test_xor : alu 0x040B#16 0xF0F0#16 0x0FF0#16 = some (0xFF00#16, 0x1234#16, 0x0101#16) := by decide

theorem test_ife_equal : cond 0x040C#16 0xFFFF#16 0xFFFF#16 = some (.normal, 0x1234#16, 0x0101#16) := by decide

theorem test_ife_differ : cond 0x040C#16 0x0001#16 0x0002#16 = some (.skipNext, 0x1234#16, 0x0101#16) := by decide

theorem test_ifn_differ : cond 0x040D#16 0x0001#16 0x0002#16 = some (.normal, 0x1234#16, 0x0101#16) := by decide

theorem test_ifn_equal : cond 0x040D#16 0xFFFF#16 0xFFFF#16 = some (.skipNext, 0x1234#16, 0x0101#16) := by decide

theorem test_ifg_unsigned : cond 0x040E#16 0x8000#16 0x7FFF#16 = some (.normal, 0x1234#16, 0x0101#16) := by decide

theorem test_ifg_equal : cond 0x040E#16 0xFFFF#16 0xFFFF#16 = some (.skipNext, 0x1234#16, 0x0101#16) := by decide

theorem test_ifb_common : cond 0x040F#16 0x00F0#16 0x0010#16 = some (.normal, 0x1234#16, 0x0101#16) := by decide

theorem test_ifb_none : cond 0x040F#16 0xAAAA#16 0x5555#16 = some (.skipNext, 0x1234#16, 0x0101#16) := by decide

/-- J9: `JSR PUSH` moves SP twice and jumps to what the first push's cell holds. -/
theorem test_jsr_push : (next (stackSample [0x6810#16])).map (fun t => (t.pc, t.sp, t.readMem 0xFFEE#16, t.o)) =
    some (0x0400#16, 0xFFEE#16, 0x0101#16, 0x1234#16) := by decide

/-- J7: `JSR POP` reads its operand after the push, so it does not jump. -/
theorem test_jsr_pop : (next (stackSample [0x6010#16])).map (fun t => (t.pc, t.sp, t.readMem 0xFFF0#16)) =
    some (0x0101#16, 0xFFF0#16, 0x0101#16) := by decide

/-- Q15: a reserved word with a POP operand leaves SP. -/
theorem test_reserved : (next (stackSample [0x6020#16])).map (fun t => (t.pc, t.sp, t.o, t.skip)) =
    some (0x0101#16, 0xFFF0#16, 0x1234#16, .normal) := by decide

/-- Q14: a reserved word consumes the extra word of `b`. -/
theorem test_reserved_extra_word : (next (sample [0x7C20#16, 0xFFFF#16] 0#16 0#16)).map (fun t => t.pc) = some 0x0102#16 :=
  by decide

/-- Q22: a skipped three-word store moves PC past all three and stores nothing. -/
theorem test_skipped : (next ((sample [0x7DE1#16, 0x1000#16, 0xBEEF#16] 0#16 0#16).setSkip .skipNext)).map
    (fun t => (t.pc, t.skip, t.readMem 0x1000#16)) = some (0x0103#16, .normal, 0x0000#16) := by decide

/-- P9: an instruction wraps at the top of memory. -/
theorem test_fetch_wraps : (next (((State.reset.writeMem 0xFFFF#16 0x7C01#16).writeMem 0#16 0x1234#16).setPc 0xFFFF#16)).map
    (fun t => (t.regs.a, t.pc)) = some (0x1234#16, 0x0001#16) := by decide

/-- Storing the value an unlisted cell reads as removes its entry. -/
theorem test_memory_canonical : ((State.reset.writeMem 5#16 0x1234#16).writeMem 5#16 0#16).mem = [] := by decide

/-! ### States and operands that meet the hypotheses of the statements -/

/-- For EncodingsFollowTheOpcodeMap: the first and the last row are in the list. -/
theorem witness_encodings_follow_the_opcode_map :
    ((15, Instr.ifb) : Nat × (Operand → Operand → Instr)) ∈ [(1, Instr.set), (15, Instr.ifb)] :=
  by simp

/-- For DecodeOfEncodeIsTheInstruction. -/
theorem witness_decode_of_encode :
    (Instr.reservedNonbasic 0x3F#6 (.smallLiteral 31#5)).wellFormed = true :=
  by decide

/-- For EncodeOfDecodeIsTheWords. -/
theorem witness_encode_of_decode :
    decode [0x7C02#16, 0x000A#16, 0x0005#16] = .instr (.add (.reg .a) (.nextLiteral 0x000A#16)) [0x0005#16] :=
  by decide

/-- For ZeroMemorySlides. -/
theorem witness_zero_memory :
    (∀ a, State.reset.readMem a = 0x0000#16) ∧ State.reset.skip = .normal :=
  ⟨Memory.readWord_nil, rfl⟩

/-- For LocationsReadAndWrite. -/
theorem witness_locations :
    (∀ u, Location.reg .pc ≠ .lit u) ∧ (∀ u, Location.mem 0xFFFF#16 ≠ .lit u) :=
  by simp

/-- For StepKeepsTheMemoryForm: a step that stores. -/
theorem witness_memory_form :
    (sample [0x0081#16] 0x2000#16 0#16).wf = true ∧
    step (sample [0x0081#16] 0x2000#16 0#16) =
    .next (((sample [0x0081#16] 0x2000#16 0#16).setPc 0x0101#16).writeMem 0x2000#16 0x2000#16) :=
  ⟨by decide, rfl⟩

/-- For AddressesWrap: each example. -/
theorem witness_addresses_wrap :
    ((sample [] 0xFFF0#16 0#16).reg .a = 0xFFF0#16) ∧ ((sample [] 0#16 0#16).setSp 0#16).sp = 0#16 ∧
    State.reset.sp = 0xFFFF#16 ∧
    (State.reset.setPc 0xFFFF#16).pc = 0xFFFF#16 :=
  by decide

/-- For OperandCodesResolveByTheTable: the first and the last small literal. -/
theorem witness_operand_codes :
    (0 < 32) ∧ (31 < 32) :=
  by decide

/-- For StepRunsTheDecodedInstruction, SkipIsSetByFailedTestsOnly, PcAfterOneTick, GeneralRegisterChangesOnlyAsDestination,
StackPointerMovesOnlyByStackUse, OverflowChangesOnlyByItsWriters and StepStoresOnlyToTheComputedCell, not skipped. -/
theorem witness_decoded_instruction_normal :
    decode (fetchWords (sample [0x0402#16] 1#16 2#16)) = .instr (.add (.reg .a) (.reg .b)) [0#16, 0#16] ∧
    (sample [0x0402#16] 1#16 2#16).skip = .normal :=
  by decide

/-- For the same statements and SkippedInstructionOnlyMovesPc, skipped. -/
theorem witness_decoded_instruction_skipped :
    decode (fetchWords ((sample [0x7C10#16, 0x0200#16] 1#16 2#16).setSkip .skipNext)) =
    .instr (.jsr (.nextLiteral 0x0200#16)) [0#16] ∧
    ((sample [0x7C10#16, 0x0200#16] 1#16 2#16).setSkip .skipNext).skip = .skipNext :=
  by decide

/-- For StepRunsTheStoredInstruction. -/
theorem witness_stored_instruction :
    (Instr.set .pc (.nextLiteral 0x0200#16)).wellFormed = true ∧
    (sample [0x7DC1#16, 0x0200#16] 0#16 0#16).skip = .normal ∧
    ∀ k, k < (Instr.set .pc (.nextLiteral 0x0200#16)).length → (encode (.set .pc (.nextLiteral 0x0200#16)))[k]? =
      some ((sample [0x7DC1#16, 0x0200#16] 0#16 0#16).readMem ((sample [0x7DC1#16, 0x0200#16] 0#16 0#16).pc + BitVec.ofNat 16 k)) :=
  by decide

/-- For SkipIsSetByFailedTestsOnly: a test that fails. -/
theorem witness_failed_test :
    decode (fetchWords (sample [0x040E#16] 1#16 1#16)) = .instr (.ifg (.reg .a) (.reg .b)) [0#16, 0#16] ∧
    (sample [0x040E#16] 1#16 1#16).skip = .normal ∧
    testFails (.ifg (.reg .a) (.reg .b)) (sample [0x040E#16] 1#16 1#16) :=
  ⟨by decide, rfl, (by decide : (1#16).toNat ≤ (1#16).toNat)⟩

/-- For LiteralDestinationIsANoOp. -/
theorem witness_literal_destination :
    decode (fetchWords (sample [0x7DF1#16, 0x1000#16, 0x2000#16] 0#16 0#16)) =
    .instr (.set (.nextLiteral 0x1000#16) (.nextLiteral 0x2000#16)) [] ∧
    aluOf (.set (.nextLiteral 0x1000#16) (.nextLiteral 0x2000#16)) =
    some (.nextLiteral 0x1000#16, .nextLiteral 0x2000#16, setAlu) ∧
    isLiteral (.nextLiteral 0x1000#16) = true :=
  ⟨by decide, rfl, rfl⟩

/-- For ReservedWordIsANoOp. -/
theorem witness_reserved_word :
    decode (fetchWords (sample [0x6820#16] 0#16 0#16)) = .instr (.reservedNonbasic 0x02#6 .push) [0#16, 0#16] :=
  by decide

/-- For SubPcOneHoldsTheMachine. -/
theorem witness_self_loop :
    (sample [0x85C3#16] 0#16 0#16).skip = .normal ∧
    (sample [0x85C3#16] 0#16 0#16).readMem (sample [0x85C3#16] 0#16 0#16).pc = 0x85C3#16 :=
  by decide

/-- For SubPcOneHoldsTheMachine: the address after it is 0. -/
theorem witness_self_loop_at_top :
    ((State.reset.writeMem 0xFFFF#16 0x85C3#16).setPc 0xFFFF#16).skip = .normal ∧
    ((State.reset.writeMem 0xFFFF#16 0x85C3#16).setPc 0xFFFF#16).readMem 0xFFFF#16 = 0x85C3#16 :=
  by decide

/-- For StoreIsSeenByTheNextFetch, its last clause too. -/
theorem witness_store_before_fetch :
    decode (fetchWords (sample [0x7DE1#16, 0x0103#16, 0x8401#16] 0#16 0#16)) =
    .instr (.set (.nextIndirect 0x0103#16) (.nextLiteral 0x8401#16)) [] ∧
    (sample [0x7DE1#16, 0x0103#16, 0x8401#16] 0#16 0#16).skip = .normal ∧
    0x0103#16 = (sample [0x7DE1#16, 0x0103#16, 0x8401#16] 0#16 0#16).pc + 3#16 :=
  by decide

/-- For the result statements of opcodes 0x1 to 0xB: both kinds of destination. -/
theorem witness_destinations :
    isLiteral (.smallLiteral 0#5) = true ∧ isLiteral (.nextLiteral 0xFFFF#16) = true ∧ isLiteral .o = false ∧
    isLiteral (.nextIndirect 0#16) = false :=
  by decide

/-- For DivWritesQuotientAndFraction, ModWritesRemainder and capturesO: a zero source and another. -/
theorem witness_sources :
    sourceValue (.reg .a) (.reg .b) (sample [] 7#16 0#16) = 0#16 ∧
    sourceValue (.reg .a) (.reg .b) (sample [] 7#16 0xFFFF#16) ≠ 0#16 :=
  by decide

/-- For IfeAndIfnAreComplements. -/
theorem witness_conditionals :
    (sample [0x040C#16] 1#16 1#16).skip = .normal :=
  by decide

/-- For IfbTestsCommonBits. -/
theorem witness_ifb_examples :
    (sample [0xC00F#16] 0x00F0#16 0#16).skip = .normal ∧ (sample [0xC00F#16] 0x00F0#16 0#16).reg .a = 0x00F0#16 ∧
    (sample [0xC00F#16] 0x00F0#16 0#16).readMem (sample [0xC00F#16] 0x00F0#16 0#16).pc = 0xC00F#16 ∧
    (sample [0xBC0F#16] 0x00F0#16 0#16).readMem (sample [0xBC0F#16] 0x00F0#16 0#16).pc = 0xBC0F#16 :=
  by decide

/-- For ArithmeticLaws. -/
theorem witness_arithmetic_laws :
    (0#16 = 0#16) ∧ (1#16 ≠ 0#16) ∧ (0xFFFF#16 ≠ 0#16) :=
  by decide

/-- For ShiftLaws: the ends of its ranges. -/
theorem witness_shift_laws :
    (16#16).toNat ≤ 16 ∧ (15#16).toNat ≤ 15 ∧ 32 ≤ (32#16).toNat ∧ 32 ≤ (0xFFFF#16).toNat :=
  by decide

/-- For PcAfterOneTick: an instruction that writes PC. -/
theorem witness_written_pc :
    writtenPc (.set .pc (.nextLiteral 0x0200#16)) (sample [] 0#16 0#16) = some 0x0200#16 :=
  by decide

/-- For GeneralRegisterChangesOnlyAsDestination: a register that changes. -/
theorem witness_register_changes :
    (next (sample [0x0401#16] 1#16 2#16)).map (fun t => t.reg .a) = some 2#16 ∧
    (sample [0x0401#16] 1#16 2#16).reg .a = 1#16 :=
  by decide

/-- For StackPointerMovesOnlyByStackUse: its classes. -/
theorem witness_stack_pointer :
    isNoOp (.set (.smallLiteral 5#5) .pop) = true ∧ isNoOp (.ife .pop .push) = false ∧
    (∀ b, Instr.ife .pop .push ≠ .jsr b) ∧
    (aluOf (.ife .pop .push)).isNone :=
  ⟨rfl, rfl, by simp, rfl⟩

/-- For OverflowChangesOnlyByItsWriters: O changes. -/
theorem witness_overflow_changes :
    (next (sample [0x0402#16] 1#16 2#16)).map (fun t => t.o) = some 0#16 ∧
    (sample [0x0402#16] 1#16 2#16).o = 0x1234#16 :=
  by decide

/-- For StepStoresOnlyToTheComputedCell: a cell that is stored to and one that is not. -/
theorem witness_stored_cell :
    storedCell (.set .push (.reg .a)) (sample [0x01A1#16] 1#16 2#16) = some 0xFFFE#16 ∧
    storedCell (.set .push (.reg .a)) (sample [0x01A1#16] 1#16 2#16) ≠ some 0xFFFF#16 :=
  by decide

/-- For OverflowIsNotReadImplicitly. -/
theorem witness_overflow_not_named :
    Operand.o ∉ operandsOf (.add (.reg .a) .pop) :=
  by decide

/-- For ReturnAfterCall: the callee's state at its return. -/
theorem witness_return_after_call :
    ∃ t, exec (.jsr (.nextLiteral 0x0200#16)) (stackSample []) = .next t ∧ t.sp = 0xFFEF#16 ∧
    (t.setPc 0x0300#16).sp = t.sp ∧ (t.setPc 0x0300#16).readMem t.sp = t.readMem t.sp :=
  ⟨_, rfl, rfl, rfl, rfl⟩

end Sys2Proof.Tests
end

section
/-! PROOFS. What one step can do, said once: the classes of instructions, what a dispatched instruction of each
class does, and a step as a skipped or a dispatched instruction. A proof about a step splits these cases and unfolds
nothing below them. -/

namespace Sys2Proof.Machine

/-! ### Locations that are registers -/

/-- Only a register operand resolves to a general register (40_operands.md R90). -/
theorem State.locOf_eq_gpr_iff (s : State) (op : Operand) (r : Reg) : s.locOf op = .reg (.gpr r) ↔ op = .reg r := by
  cases op <;> simp [State.locOf]

/-- Only code 0x1B resolves to SP (40_operands.md R90). -/
theorem State.locOf_eq_sp_iff (s : State) (op : Operand) : s.locOf op = .reg .sp ↔ op = .sp := by
  cases op <;> simp [State.locOf]

/-- Only code 0x1D resolves to O (40_operands.md R90). -/
theorem State.locOf_eq_o_iff (s : State) (op : Operand) : s.locOf op = .reg .o ↔ op = .o := by
  cases op <;> simp [State.locOf]

/-! ### Classes of instructions -/

/-- Destination, source and condition of an instruction of opcodes 0xC to 0xF; `none` for the others. -/
def testOf : Instr → Option (Operand × Operand × (Word → Word → Bool))
  | .ife d b => some (d, b, ifeCond)
  | .ifn d b => some (d, b, ifnCond)
  | .ifg d b => some (d, b, ifgCond)
  | .ifb d b => some (d, b, ifbCond)
  | _ => none

/-- The four classes: JSR, the reserved words, opcodes 0x1 to 0xB and opcodes 0xC to 0xF (30_encoding.md R54, R55). -/
theorem instr_classes (i : Instr) :
    (∃ b, i = .jsr b) ∨ (∃ n b, i = .reservedNonbasic n b) ∨ (∃ d b f, aluOf i = some (d, b, f)) ∨
      ∃ d b c, testOf i = some (d, b, c) := by
  cases i with
  | jsr b => exact .inl ⟨b, rfl⟩
  | reservedNonbasic n b => exact .inr (.inl ⟨n, b, rfl⟩)
  | ife d b | ifn d b | ifg d b | ifb d b => exact .inr (.inr (.inr ⟨d, b, _, rfl⟩))
  | set d b | add d b | sub d b | mul d b | div d b | mod d b | shl d b | shr d b | and d b | bor d b | xor d b =>
    exact .inr (.inr (.inl ⟨d, b, _, rfl⟩))

section
variable {i : Instr} {d b : Operand} {f : Word → Word → AluResult} {c : Word → Word → Bool}

theorem operandsOf_of_aluOf (h : aluOf i = some (d, b, f)) : operandsOf i = [d, b] := by
  cases i <;> simp_all [aluOf, operandsOf]

/-- An instruction of opcodes 0x1 to 0xB is a no-op exactly when its destination is a literal. -/
theorem isNoOp_of_aluOf (h : aluOf i = some (d, b, f)) : isNoOp i = isLiteral d := by
  cases i <;> simp_all [aluOf, isNoOp]

theorem ne_jsr_of_aluOf (h : aluOf i = some (d, b, f)) (x : Operand) : i ≠ .jsr x := by
  rintro rfl
  simp [aluOf] at h

/-- Operands and remaining classes of an instruction of opcodes 0xC to 0xF. -/
theorem classes_of_testOf (h : testOf i = some (d, b, c)) :
    operandsOf i = [d, b] ∧ aluOf i = none ∧ isNoOp i = false ∧ ∀ x, i ≠ .jsr x := by
  cases i <;> simp_all [testOf, operandsOf, aluOf, isNoOp]

/-- `capturesO` is that the operation answers a value for O. -/
theorem capturesO_iff_overflow_isSome (h : aluOf i = some (d, b, f)) (s : State) :
    capturesO i s ↔ (f (destValue d b s) (sourceValue d b s)).overflow.isSome := by
  cases i <;> simp only [aluOf, Option.some.injEq, Prod.mk.injEq, reduceCtorEq] at h <;> obtain ⟨rfl, rfl, rfl⟩ := h
  case mod => simp [capturesO, modAlu, modOverflow]
  all_goals simp [capturesO, setAlu, addAlu, subAlu, mulAlu, divAlu, shlAlu, shrAlu, andAlu, borAlu, xorAlu]

/-- `exec` on an instruction of opcodes 0xC to 0xF, in terms of its destination, source and condition. -/
theorem exec_test (h : testOf i = some (d, b, c)) (s : State) : exec i s = execConditional (condTemplate c) d b s := by
  cases i <;> simp only [testOf, Option.some.injEq, Prod.mk.injEq, reduceCtorEq] at h <;>
    obtain ⟨rfl, rfl, rfl⟩ := h <;> rfl

end

/-! ### A dispatched instruction -/

/-- What dispatching instruction `i` in state `s` can lead to: one case per class, each with its whole effect. -/
inductive ExecEffect (i : Instr) (s : State) : State → Prop
  | noOp (h : isNoOp i = true) : ExecEffect i s s
  | alu {d b : Operand} {f : Word → Word → AluResult} {t : State} (h : aluOf i = some (d, b, f))
      (hd : isLiteral d = false)
      (effect : BasicEffect d b s t (f (destValue d b s) (sourceValue d b s)).result
        (f (destValue d b s) (sourceValue d b s)).overflow) : ExecEffect i s t
  | test {d b : Operand} {c : Word → Word → Bool} {t : State} (h : testOf i = some (d, b, c))
      (effect : CondEffect d b s t (c (destValue d b s) (sourceValue d b s) = true)) : ExecEffect i s t
  | jsr {b : Operand} {t : State} (h : i = .jsr b) (effect : JsrEffect b s t) : ExecEffect i s t

/-- Every dispatched instruction answers a next state, by one of the cases of `ExecEffect`. -/
theorem exec_effect (i : Instr) (s : State) : ∃ t, exec i s = .next t ∧ ExecEffect i s t := by
  obtain ⟨b, rfl⟩ | ⟨n, b, rfl⟩ | ⟨d, b, f, h⟩ | ⟨d, b, c, h⟩ := instr_classes i
  · exact ⟨_, rfl, .jsr rfl (opJsr_effect b s)⟩
  · exact ⟨s, rfl, .noOp rfl⟩
  · cases hd : isLiteral d with
    | true =>
      exact ⟨s, by rw [exec_alu h, execNonConditional_literal _ _ _ _ hd], .noOp (by rw [isNoOp_of_aluOf h, hd])⟩
    | false =>
      obtain ⟨t, ht, effect⟩ := exec_alu_effect h s hd
      exact ⟨t, ht, .alu h hd effect⟩
  · exact ⟨_, exec_test h s, .test h (condTemplate_effect c d b s)⟩

/-! ### A step -/

section
variable {s : State} {i : Instr} {rest : List Word}

@[simp] theorem advance_reg (i : Instr) (s : State) (r : Reg) : (advance i s).reg r = s.reg r := rfl
@[simp] theorem advance_sp (i : Instr) (s : State) : (advance i s).sp = s.sp := rfl
@[simp] theorem advance_o (i : Instr) (s : State) : (advance i s).o = s.o := rfl
@[simp] theorem advance_skip (i : Instr) (s : State) : (advance i s).skip = s.skip := rfl
@[simp] theorem advance_readMem (i : Instr) (s : State) (a : Word) : (advance i s).readMem a = s.readMem a := rfl

theorem step_of_normal (h : decode (fetchWords s) = .instr i rest) (hs : s.skip = .normal) :
    step s = exec i (advance i s) := by
  simp [step, h, hs]

theorem step_of_skipNext (h : decode (fetchWords s) = .instr i rest) (hs : s.skip = .skipNext) :
    step s = .next ((advance i s).setSkip .normal) := by
  simp [step, h, hs, runSkipped]

/-- What a step from `s` that fetches `i` can lead to: `i` is passed over or dispatched (41_tick_sequencer.md R100). -/
inductive StepEffect (i : Instr) (s : State) : State → Prop
  | skipped (hs : s.skip = .skipNext) : StepEffect i s ((advance i s).setSkip .normal)
  | dispatched {t : State} (hs : s.skip = .normal) (effect : ExecEffect i (advance i s) t) : StepEffect i s t

theorem step_effect (h : decode (fetchWords s) = .instr i rest) : ∃ t, step s = .next t ∧ StepEffect i s t := by
  cases hs : s.skip with
  | skipNext => exact ⟨_, step_of_skipNext h hs, .skipped hs⟩
  | normal =>
    obtain ⟨t, ht, effect⟩ := exec_effect i (advance i s)
    exact ⟨t, (step_of_normal h hs).trans ht, .dispatched hs effect⟩

end

end Sys2Proof.Machine
end

section
/-! PROOFS. The rules of 10_state.md about which instruction changes a register: each is a case split over what a
step can do. -/

namespace Sys2Proof.Machine

/-- What changes a general register when an instruction is dispatched. -/
theorem ExecEffect.reg_ne {i : Instr} {s t : State} (h : ExecEffect i s t) {r : Reg} (hr : t.reg r ≠ s.reg r) :
    ∃ b f, aluOf i = some (.reg r, b, f) := by
  cases h with
  | noOp _ => exact absurd rfl hr
  | test _ effect => exact absurd (effect.gpr r) hr
  | jsr _ effect => exact absurd (effect.gpr r) hr
  | @alu d b f _ ha _ effect =>
    have hd : s.locOf d = .reg (.gpr r) := by
      by_contra hne
      exact hr ((effect.gpr r).trans (if_neg hne))
    rw [State.locOf_eq_gpr_iff] at hd
    exact ⟨b, f, hd ▸ ha⟩

/-- SP after a dispatched instruction that is neither JSR nor has SP as its destination. -/
theorem ExecEffect.sp_eq {i : Instr} {s t : State} (h : ExecEffect i s t) (hn : isNoOp i = false)
    (hj : ∀ b, i ≠ .jsr b) (hsp : ∀ b f, aluOf i ≠ some (.sp, b, f)) :
    t.sp = s.sp + ((operandsOf i).map stackShift).sum := by
  cases h with
  | noOp hno => simp [hno] at hn
  | jsr hi _ => exact absurd hi (hj _)
  | test ht effect => simp [effect.sp, (classes_of_testOf ht).1, BitVec.add_assoc]
  | @alu d b f _ ha _ effect =>
    have hd : s.locOf d ≠ .reg .sp := fun e => hsp b f ((s.locOf_eq_sp_iff d).1 e ▸ ha)
    simp [effect.sp, hd, operandsOf_of_aluOf ha, BitVec.add_assoc]

/-- SP after a dispatched JSR: one below its operand's effect (45_nonbasic.md R180). -/
theorem ExecEffect.sp_jsr {b : Operand} {s t : State} (h : ExecEffect (.jsr b) s t) :
    t.sp = s.sp + stackShift b - 1#16 := by
  cases h with
  | noOp hno => simp [isNoOp, aluOf] at hno
  | alu ha _ _ => simp [aluOf] at ha
  | test ht _ => simp [testOf] at ht
  | jsr hi effect =>
    cases hi
    exact effect.sp

/-- A dispatched no-op changes nothing (41_tick_sequencer.md R103). -/
theorem ExecEffect.eq_of_isNoOp {i : Instr} {s t : State} (h : ExecEffect i s t) (hn : isNoOp i = true) : t = s := by
  cases h with
  | noOp _ => rfl
  | alu ha hd _ => simp [isNoOp_of_aluOf ha, hd] at hn
  | test ht _ =>
    obtain ⟨-, -, hno, -⟩ := classes_of_testOf ht
    simp [hno] at hn
  | jsr hi _ => simp [hi, isNoOp, aluOf] at hn

/-- What changes O when an instruction is dispatched. -/
theorem ExecEffect.o_ne {i : Instr} {s t : State} (h : ExecEffect i s t) (ho : t.o ≠ s.o) :
    isNoOp i = false ∧ (capturesO i s ∨ ∃ b f, aluOf i = some (.o, b, f)) := by
  cases h with
  | noOp _ => exact absurd rfl ho
  | test _ effect => exact absurd effect.o ho
  | jsr _ effect => exact absurd effect.o ho
  | @alu d b f _ ha hd effect =>
    refine ⟨by rw [isNoOp_of_aluOf ha, hd], ?_⟩
    rw [capturesO_iff_overflow_isSome ha]
    by_cases hdst : d = .o
    · exact .inr ⟨b, f, hdst ▸ ha⟩
    · left
      by_contra hnone
      rw [Option.not_isSome_iff_eq_none] at hnone
      have hloc : s.locOf d ≠ .reg .o := mt (s.locOf_eq_o_iff d).1 hdst
      exact ho (by simp [effect.o, hnone, hloc])

/-- Settles O44: a step changes a general register by dispatching an instruction with that destination only. -/
theorem generalRegisterChangesOnlyAsDestination : Obligations.GeneralRegisterChangesOnlyAsDestination := by
  intro s i rest h
  obtain ⟨t, ht, effect⟩ := step_effect h
  refine ⟨t, ht, fun r hr => ?_⟩
  cases effect with
  | skipped hs => exact absurd rfl hr
  | dispatched hs effect => exact ⟨hs, effect.reg_ne hr⟩

/-- Settles O45, by the classes of a dispatched instruction. -/
theorem stackPointerMovesOnlyByStackUse : Obligations.StackPointerMovesOnlyByStackUse := by
  intro s i rest h
  obtain ⟨t, ht, effect⟩ := step_effect h
  refine ⟨t, ht, ?_⟩
  cases effect with
  | skipped hs => exact ⟨fun _ => rfl, fun hn => by simp [hs] at hn⟩
  | dispatched hs effect =>
    refine ⟨?_, fun _ => ⟨?_, fun hn hj hsp => effect.sp_eq hn hj hsp⟩⟩
    · rintro (hskip | hno)
      · simp [hs] at hskip
      · rw [effect.eq_of_isNoOp hno, advance_sp]
    · rintro b rfl
      exact effect.sp_jsr

/-- Settles O46: a step changes O by dispatching an instruction that captures into it or names it as destination. -/
theorem overflowChangesOnlyByItsWriters : Obligations.OverflowChangesOnlyByItsWriters := by
  intro s i rest h
  obtain ⟨t, ht, effect⟩ := step_effect h
  refine ⟨t, ht, fun ho => ?_⟩
  cases effect with
  | skipped hs => exact absurd rfl ho
  | dispatched hs effect => exact ⟨hs, effect.o_ne ho⟩

end Sys2Proof.Machine
end

section
/-! PROOFS. No operation reads O implicitly (10_state.md R15): every operation on Locations other than O commutes with
a change of O, up to the value it captures itself. -/

namespace Sys2Proof.Machine

/-! ### Operations on Locations other than O, through a change of O -/

theorem State.locRead_setO (s : State) (v : Word) {loc : Location} (h : loc ≠ .reg .o) :
    (s.setO v).locRead loc = s.locRead loc := by
  rcases loc with (r | _ | _ | _) | a | u
  case reg.o => exact absurd rfl h
  all_goals rfl

theorem State.locWrite_setO (s : State) (v w : Word) {loc : Location} (h : loc ≠ .reg .o) :
    (s.setO v).locWrite loc w = (s.locWrite loc w).setO v := by
  rcases loc with (r | _ | _ | _) | a | u
  case reg.o => exact absurd rfl h
  all_goals rfl

/-- A write to another Location than O leaves O. -/
theorem State.locWrite_o (s : State) (w : Word) {loc : Location} (h : loc ≠ .reg .o) :
    (s.locWrite loc w).o = s.o := by
  rcases loc with (r | _ | _ | _) | a | u
  case reg.o => exact absurd rfl h
  all_goals rfl

theorem State.resolveEffect_setO (op : Operand) (s : State) (v : Word) :
    (s.setO v).resolveEffect op true = (s.resolveEffect op true).setO v := rfl

theorem resolveBoth_setO (d b : Operand) (s : State) (v : Word) :
    resolveBoth d b true (s.setO v) =
      { resolveBoth d b true s with state := (resolveBoth d b true s).state.setO v } := by
  simp only [resolveBoth, State.resolveEffect_setO, State.setO_locOf]

theorem resolveBoth_dst_ne_o {d : Operand} (b : Operand) (s : State) (h : d ≠ .o) :
    (resolveBoth d b true s).dst ≠ .reg .o :=
  mt (s.locOf_eq_o_iff d).1 h

theorem resolveBoth_src_ne_o (d : Operand) {b : Operand} (s : State) (h : b ≠ .o) :
    (resolveBoth d b true s).src ≠ .reg .o :=
  mt ((s.resolveEffect d true).locOf_eq_o_iff b).1 h

/-! ### The outcomes from two states that differ in O only -/

/-- From `s` the answer is `t`, from `s` with O set to `v` it is `t'`; they differ in O at most, and in O only if it
was kept. -/
def AgreeUpToO (s : State) (v : Word) (t t' : State) : Prop :=
  t'.setO t.o = t ∧ (t'.o = t.o ∨ (t.o = s.o ∧ t'.o = v))

theorem agreeUpToO_kept {s t : State} (v : Word) (h : t.o = s.o) : AgreeUpToO s v t (t.setO v) :=
  ⟨rfl, .inr ⟨h, rfl⟩⟩

theorem agreeUpToO_same (s t : State) (v : Word) : AgreeUpToO s v t t := ⟨rfl, .inl rfl⟩

section
variable {D S : Location} (hD : D ≠ .reg .o) (hS : S ≠ .reg .o) (s : State) (v : Word)
include hD

theorem writeBack_agreeUpToO (r : AluResult) : AgreeUpToO s v (writeBack D r s) (writeBack D r (s.setO v)) := by
  unfold writeBack
  rw [s.locWrite_setO v _ hD]
  cases r.overflow with
  | none => exact agreeUpToO_kept v (s.locWrite_o _ hD)
  | some w => exact agreeUpToO_same s _ v

include hS

theorem aluTemplate_agreeUpToO (f : Word → Word → AluResult) :
    AgreeUpToO s v (aluTemplate f D S s) (aluTemplate f D S (s.setO v)) := by
  unfold aluTemplate
  rw [s.locRead_setO v hD, s.locRead_setO v hS]
  exact writeBack_agreeUpToO hD s v _

theorem condTemplate_agreeUpToO (c : Word → Word → Bool) :
    AgreeUpToO s v (condTemplate c D S s) (condTemplate c D S (s.setO v)) := by
  unfold condTemplate
  rw [s.locRead_setO v hD, s.locRead_setO v hS]
  split <;> exact agreeUpToO_kept v rfl

end

theorem opJsr_agreeUpToO {S : Location} (hS : S ≠ .reg .o) (s : State) (v : Word) :
    AgreeUpToO s v (opJsr S s) (opJsr S (s.setO v)) := by
  have push : (s.setO v).pushWord (s.setO v).pc = (s.pushWord s.pc).setO v := rfl
  unfold opJsr
  rw [push, (s.pushWord s.pc).locRead_setO v hS]
  exact agreeUpToO_kept v rfl

/-- Settles O48, class by class: the operands resolve to Locations other than O, so both runs read the same values. -/
theorem overflowIsNotReadImplicitly : Obligations.OverflowIsNotReadImplicitly := by
  intro i s v ho
  suffices h : ∃ t t', exec i s = .next t ∧ exec i (s.setO v) = .next t' ∧ AgreeUpToO s v t t' from h
  obtain ⟨b, rfl⟩ | ⟨n, b, rfl⟩ | ⟨d, b, f, h⟩ | ⟨d, b, c, h⟩ := instr_classes i
  · have hb : b ≠ .o := by simpa [operandsOf, eq_comm] using ho
    refine ⟨_, _, rfl, rfl, ?_⟩
    rw [State.setO_locOf, State.resolveEffect_setO]
    exact opJsr_agreeUpToO (mt (s.locOf_eq_o_iff b).1 hb) (s.resolveEffect b true) v
  · exact ⟨_, _, rfl, rfl, agreeUpToO_kept v rfl⟩
  · obtain ⟨hdo, hbo⟩ : d ≠ .o ∧ b ≠ .o := by simpa [operandsOf_of_aluOf h, eq_comm] using ho
    rw [exec_alu h, exec_alu h]
    cases hd : isLiteral d with
    | true =>
      exact ⟨_, _, execNonConditional_literal _ _ _ _ hd, execNonConditional_literal _ _ _ _ hd,
        agreeUpToO_kept v rfl⟩
    | false =>
      refine ⟨_, _, execNonConditional_dispatch _ _ _ _ hd, execNonConditional_dispatch _ _ _ _ hd, ?_⟩
      rw [resolveBoth_setO]
      exact aluTemplate_agreeUpToO (resolveBoth_dst_ne_o b s hdo) (resolveBoth_src_ne_o d s hbo) _ v f
  · obtain ⟨hdo, hbo⟩ : d ≠ .o ∧ b ≠ .o := by simpa [(classes_of_testOf h).1, eq_comm] using ho
    refine ⟨_, _, exec_test h s, exec_test h (s.setO v), ?_⟩
    rw [resolveBoth_setO]
    exact condTemplate_agreeUpToO (resolveBoth_dst_ne_o b s hdo) (resolveBoth_src_ne_o d s hbo) _ v c

end Sys2Proof.Machine
end

section
/-! PROOFS. The reset state and a loaded image (10_state.md R21 to R26, 70_reset_and_hazards.md R214). -/

namespace Sys2Proof.Machine

/-- Memory after `load`: the image from address 0 on, up to the size of memory, and every other cell as before. -/
theorem State.readMem_load (s : State) (image : List Word) (a : Word) :
    (s.load image).readMem a = if a.toNat < image.length then image.getD a.toNat 0#16 else s.readMem a := by
  have hlen : 0 + (image.take Config.memWords).length ≤ 65536 := by simp [Config.memWords]
  have hcopy := Memory.readWord_copyWords (image.take Config.memWords) s.mem 0 hlen a
  have ha : a.toNat < Config.memWords := a.isLt
  simpa [State.load, State.readMem, List.getElem?_take, ha] using hcopy

@[simp] theorem State.reset_readMem (a : Word) : State.reset.readMem a = 0#16 := Memory.readWord_nil a

/-- Settles O6, by the law of `load` over the reset memory. -/
theorem resetStackPointerAndMemory : Obligations.ResetStackPointerAndMemory :=
  ⟨rfl, State.reset_readMem, fun image a => by rw [State.readMem_load, State.reset_readMem]⟩

/-- Settles O7. -/
theorem resetRegistersAreTheSpecsChoice : Obligations.ResetRegistersAreTheSpecsChoice :=
  ⟨fun r => by cases r <;> rfl, rfl, rfl, rfl⟩

/-- Settles O8, by the form of the empty memory. -/
theorem resetMeetsTheMemoryForm : Obligations.ResetMeetsTheMemoryForm := Memory.wf_reset

end Sys2Proof.Machine
end

section
/-! PROOFS. The rules of memory (20_memory.md): a store and what a load reads after it, addresses that wrap, the
canonical form kept by every step, the stored instruction that the next step runs, and the one cell a step changes. -/

namespace Sys2Proof.Machine

/-! ### The canonical form of memory (log 1) -/

theorem wf_condTemplate (c : Word → Word → Bool) (D S : Location) {s : State} (h : s.wf = true) :
    (condTemplate c D S s).wf = true := by
  unfold condTemplate
  split <;> exact h

/-- Dispatching an instruction keeps the canonical form: opcodes 0x1 to 0xB store by their write-back, JSR by its push,
and the others store nothing. -/
theorem exec_keeps_wf {i : Instr} {s t : State} (h : s.wf = true) (ht : exec i s = .next t) : t.wf = true := by
  obtain ⟨b, rfl⟩ | ⟨n, b, rfl⟩ | ⟨d, b, f, hi⟩ | ⟨d, b, c, hi⟩ := instr_classes i
  · cases ht
    exact (s.resolveEffect b true).wf_pushWord _ h
  · cases ht
    exact h
  · rw [exec_alu hi] at ht
    cases hd : isLiteral d with
    | true =>
      rw [execNonConditional_literal _ _ _ _ hd] at ht
      cases ht
      exact h
    | false =>
      rw [execNonConditional_dispatch _ _ _ _ hd] at ht
      cases ht
      exact wf_writeBack _ _ _ h
  · rw [exec_test hi] at ht
    cases ht
    exact wf_condTemplate _ _ _ h

/-- A step that answers a next state decoded an instruction. -/
theorem decode_of_step_eq_next {s t : State} (h : step s = .next t) :
    ∃ i rest, decode (fetchWords s) = .instr i rest := by
  cases hd : decode (fetchWords s) with
  | instr i rest => exact ⟨i, rest, rfl⟩
  | rejected why => simp [step, hd] at h

/-- Settles O15: moving PC and clearing the skip store nothing, and dispatching keeps the form. -/
theorem stepKeepsTheMemoryForm : Obligations.StepKeepsTheMemoryForm := by
  intro s t h ht
  obtain ⟨i, rest, hi⟩ := decode_of_step_eq_next ht
  cases hs : s.skip with
  | normal =>
    rw [step_of_normal hi hs] at ht
    exact exec_keeps_wf (s := advance i s) h ht
  | skipNext =>
    rw [step_of_skipNext hi hs] at ht
    cases ht
    exact h

/-! ### Stored instructions -/

theorem decode_encodeBasic {op : Opcode} {form : Operand → Operand → Instr} (h : basicForm op = some form)
    (d b : Operand) (rest : List Word) : decode (encodeBasic op d b ++ rest) = .instr (form d b) rest := by
  simp [encodeBasic, decode, h, decodeBasic, List.append_assoc, decodeOperand_code]

theorem decode_encodeNonBasic (subop : BitVec 6) (b : Operand) (rest : List Word) :
    decode (encodeNonBasic subop b ++ rest) =
      .instr (if subop = jsrSubop then .jsr b else .reservedNonbasic subop b) rest := by
  have hop : basicForm 0x0#4 = none := rfl
  simp only [encodeNonBasic, List.cons_append, decode, opField_assemble, hop, decodeNonBasic, aField_assemble,
    bField_assemble, decodeOperand_code]
  split <;> rfl

/-- The words of a well-formed instruction decode to it and leave the words after them (30_encoding.md R63). -/
theorem decode_encode_append (i : Instr) (h : i.wellFormed = true) (rest : List Word) :
    decode (encode i ++ rest) = .instr i rest := by
  cases i with
  | jsr b => exact decode_encodeNonBasic jsrSubop b rest
  | reservedNonbasic n b =>
    have hn : n ≠ jsrSubop := by simpa [Instr.wellFormed] using h
    exact (decode_encodeNonBasic n b rest).trans (by rw [if_neg hn])
  | set d b | add d b | sub d b | mul d b | div d b | mod d b | shl d b | shr d b | and d b | bor d b | xor d b
  | ife d b | ifn d b | ifg d b | ifb d b => exact decode_encodeBasic rfl d b rest

/-- The fetch reads the words from PC on, addresses modulo 2^16 (20_memory.md R35). -/
theorem fetchWords_getElem? (s : State) {k : Nat} (h : k < 3) :
    (fetchWords s)[k]? = some (s.readMem (s.pc + BitVec.ofNat 16 k)) := by
  interval_cases k <;> simp [fetchWords]

@[simp] theorem fetchWords_head? (s : State) : (fetchWords s).head? = some (s.readMem s.pc) := rfl

theorem length_le_three (i : Instr) : i.length ≤ 3 := by
  cases i with
  | jsr b | reservedNonbasic n b => exact (Laws.EncodedLength.nonBasicWords _ b).2
  | set d b | add d b | sub d b | mul d b | div d b | mod d b | shl d b | shr d b | and d b | bor d b | xor d b
  | ife d b | ifn d b | ifg d b | ifb d b => exact (Laws.EncodedLength.basicWords _ d b).2

/-- Words stored from PC on are the first words fetched. -/
theorem encode_prefix_fetchWords {s : State} {i : Instr}
    (h : ∀ k, k < i.length → (encode i)[k]? = some (s.readMem (s.pc + BitVec.ofNat 16 k))) :
    encode i <+: fetchWords s := by
  rw [List.prefix_iff_getElem?]
  intro k hk
  rw [fetchWords_getElem? s (hk.trans_le (length_le_three i)), ← h k hk, List.getElem?_eq_getElem hk]

/-- Settles O19: the words fetched begin with the instruction's, so they decode to it. -/
theorem stepRunsTheStoredInstruction : Obligations.StepRunsTheStoredInstruction := by
  intro s i hwf hs hmem
  obtain ⟨rest, hrest⟩ := encode_prefix_fetchWords hmem
  have hdecode : decode (fetchWords s) = .instr i rest := by rw [← hrest, decode_encode_append i hwf]
  exact step_of_normal hdecode hs

/-! ### The one cell a step stores to -/

theorem storedCell_of_aluOf {i : Instr} {d b : Operand} {f : Word → Word → AluResult} (h : aluOf i = some (d, b, f))
    {s : State} {a : Word} (hd : s.locOf d = .mem a) : storedCell i s = some a := by
  cases i <;> simp_all [aluOf, storedCell]

/-- A dispatched instruction keeps every cell but the one computed from it (20_memory.md R41). -/
theorem ExecEffect.readMem_eq {i : Instr} {s t : State} (h : ExecEffect i s t) {a : Word}
    (ha : storedCell i s ≠ some a) : t.readMem a = s.readMem a := by
  cases h with
  | noOp _ => rfl
  | test _ effect => exact effect.mem a
  | @jsr b _ hi effect =>
    have hne : a ≠ jsrAddress b s := by
      rintro rfl
      exact ha (by rw [hi]; rfl)
    rw [effect.mem, if_neg hne]
  | alu hi _ effect => rw [effect.mem, if_neg fun hd => ha (storedCell_of_aluOf hi hd)]

/-- Settles O47, by the cases of a step. -/
theorem stepStoresOnlyToTheComputedCell : Obligations.StepStoresOnlyToTheComputedCell := by
  intro s i rest h
  obtain ⟨t, ht, effect⟩ := step_effect h
  refine ⟨t, ht, ?_⟩
  cases effect with
  | skipped hs => exact ⟨fun _ _ => rfl, fun hn => by simp [hs] at hn⟩
  | dispatched hs effect => exact ⟨fun hn => by simp [hs] at hn, fun _ a ha => effect.readMem_eq ha⟩

/-- Settles O28: the tick dispatches the words it fetched, and its store is there at the next fetch. -/
theorem storeIsSeenByTheNextFetch : Obligations.StoreIsSeenByTheNextFetch := by
  intro s a v rest hs h
  obtain ⟨t, ht, effect⟩ := exec_alu_effect (i := .set (.nextIndirect a) (.nextLiteral v)) rfl
    (advance (.set (.nextIndirect a) (.nextLiteral v)) s) rfl
  have hpc : t.pc = s.pc + 3#16 := effect.pc
  have hmem : ∀ x, t.readMem x = if x = a then v else s.readMem x := by
    intro x
    simpa [State.locOf, setAlu, sourceValue, State.locRead, eq_comm] using effect.mem x
  refine ⟨t, (step_of_normal h hs).trans ht, hpc, hmem, ?_⟩
  rintro rfl
  rw [fetchWords_head?, hpc, hmem, if_pos rfl]

/-! ### Stores, loads and addresses -/

/-- Settles O12, by the law of a read after a write. -/
theorem storeSetsOneCellOnly : Obligations.StoreSetsOneCellOnly := by
  intro s addr v
  exact ⟨fun a => s.readMem_writeMem addr a v, rfl, rfl, rfl, rfl, rfl, State.reset_readMem addr, by simp⟩

theorem toNat_add_one (w : Word) : (w + 1#16).toNat = (w.toNat + 1) % 65536 := BitVec.toNat_add w 1#16

theorem toNat_sub_one (w : Word) : (w - 1#16).toNat = (w.toNat + 65535) % 65536 := by
  rw [BitVec.toNat_sub, Nat.add_comm]
  rfl

/-- Resolving PUSH moves SP one down, to the cell it names (40_operands.md R79). -/
theorem resolveEffect_push_sp (s : State) : (s.resolveEffect .push true).sp = s.sp - 1#16 := by
  simp only [State.resolveEffect_commit, State.setSp_sp, stackShift]
  bv_omega

/-- Settles O13: each address is a 16-bit sum or difference, and the examples are instances. -/
theorem addressesWrap : Obligations.AddressesWrap := by
  refine ⟨fun s r nw => ⟨s.reg r + nw, rfl, BitVec.toNat_add _ _, ?_⟩, fun s => ⟨toNat_add_one s.sp, ?_,
    fun v => toNat_sub_one s.sp, toNat_add_one s.pc⟩, fun s h => ?_, fun s h => ?_, fun s h => ?_⟩
  · intro hr hnw
    rw [hr, hnw]
    rfl
  · exact ⟨s.sp - 1#16, rfl, resolveEffect_push_sp s, toNat_sub_one s.sp⟩
  · simp [stackShift, h]
  · rw [resolveEffect_push_sp, h]
    rfl
  · simp [nextWord, h]

end Sys2Proof.Machine
end

section
/-! PROOFS. The rules of 30_encoding.md: decoding and encoding are inverse to each other, every word decodes with the
length R56 gives it, the words as numbers, and the literal destination of R60. -/

namespace Sys2Proof.Machine

/-! ### The two formats -/

theorem decode_cons_nonBasic {w : Word} (h : opField w = 0x0#4) (ws : List Word) :
    decode (w :: ws) = decodeNonBasic (aField w) (bField w) ws := by
  simp only [decode, (basicForm_none _).2 h]

theorem decode_cons_basic {w : Word} {form : Operand → Operand → Instr} (h : basicForm (opField w) = some form)
    (ws : List Word) : decode (w :: ws) = decodeBasic form (aField w) (bField w) ws := by
  simp only [decode, h]

/-! ### What decodes, and what it is encoded by -/

/-- The reader of the non-basic format, inverted: what it makes of an operand is encoded by the fields it read. -/
theorem encode_of_decodeNonBasic {n : BitVec 6} {b : OperandCode} {ws rest : List Word} {i : Instr}
    (h : decodeNonBasic n b ws = .instr i rest) :
    i.wellFormed = true ∧ encode i ++ rest = assembleWord 0x0#4 n b :: ws := by
  unfold decodeNonBasic at h
  split at h
  · cases h
  next s tail hs =>
    obtain ⟨rfl, rfl⟩ := code_decodeOperand hs
    split at h
    next hn =>
      cases h
      exact ⟨rfl, by rw [hn]; rfl⟩
    next hn =>
      cases h
      exact ⟨by simpa [Instr.wellFormed] using hn, rfl⟩

/-- The reader of the basic format, inverted. -/
theorem encode_of_decodeBasic {op : Opcode} {form : Operand → Operand → Instr} (hform : basicForm op = some form)
    {a b : OperandCode} {ws rest : List Word} {i : Instr} (h : decodeBasic form a b ws = .instr i rest) :
    i.wellFormed = true ∧ encode i ++ rest = assembleWord op a b :: ws := by
  unfold decodeBasic at h
  split at h
  · cases h
  next d afterD hd =>
    split at h
    · cases h
    next s tail hs =>
      cases h
      obtain ⟨rfl, rfl⟩ := code_decodeOperand hd
      obtain ⟨rfl, rfl⟩ := code_decodeOperand hs
      obtain ⟨hencode, hwf⟩ := encode_basicForm hform d s
      exact ⟨hwf, by simp [hencode, encodeBasic]⟩

/-- What decodes is well-formed, and its words were the front of the list (30_encoding.md R63). -/
theorem encode_of_decode {ws rest : List Word} {i : Instr} (h : decode ws = .instr i rest) :
    i.wellFormed = true ∧ encode i ++ rest = ws := by
  cases ws with
  | nil => cases h
  | cons w ws =>
    rw [← assemble_fields w]
    cases hform : basicForm (opField w) with
    | none =>
      have hop := (basicForm_none (opField w)).1 hform
      rw [decode_cons_nonBasic hop] at h
      rw [hop]
      exact encode_of_decodeNonBasic h
    | some form =>
      rw [decode_cons_basic hform] at h
      exact encode_of_decodeBasic hform h

/-- Settles O3, by the decoder on the words of each format. -/
theorem decodeOfEncodeIsTheInstruction : Obligations.DecodeOfEncodeIsTheInstruction :=
  fun i rest h => decode_encode_append i h rest

/-- Settles O4: the decoder inverted format by format, and a word is assembled from its own fields. -/
theorem encodeOfDecodeIsTheWords : Obligations.EncodeOfDecodeIsTheWords :=
  fun _ _ _ h => encode_of_decode h

/-! ### Lengths -/

theorem wordLength_bounds (w : Word) : 1 ≤ wordLength w ∧ wordLength w ≤ 3 := by
  have ha := needsExtra_le_one (aField w)
  have hb := needsExtra_le_one (bField w)
  unfold wordLength
  split <;> omega

theorem encodeBasic_length {op : Opcode} (hop : op ≠ 0x0#4) (d b : Operand) :
    (encodeBasic op d b).length = wordLength (assembleWord op d.code b.code) := by
  simp only [encodeBasic, wordLength, opField_assemble, aField_assemble, bField_assemble, if_neg hop, List.length_cons,
    List.length_append, Operand.extraWords_length]
  omega

theorem encodeNonBasic_length (n : BitVec 6) (b : Operand) :
    (encodeNonBasic n b).length = wordLength (assembleWord 0x0#4 n b.code) := by
  simp [encodeNonBasic, wordLength, Operand.extraWords_length, Nat.add_comm]

/-- The first word of an instruction says how long it is (30_encoding.md R56). -/
theorem length_eq_wordLength {i : Instr} {w : Word} (h : (encode i).head? = some w) : i.length = wordLength w := by
  cases i with
  | jsr b | reservedNonbasic n b =>
    cases h
    exact encodeNonBasic_length _ b
  | set d b | add d b | sub d b | mul d b | div d b | mod d b | shl d b | shr d b | and d b | bor d b | xor d b
  | ife d b | ifn d b | ifg d b | ifb d b =>
    cases h
    exact encodeBasic_length (by decide) d b

theorem encode_ne_nil (i : Instr) : encode i ≠ [] := by
  cases i <;> exact List.cons_ne_nil _ _

/-- The length of a decoded instruction and the words after it, by the first word alone. -/
theorem length_of_decode {w : Word} {ws rest : List Word} {i : Instr} (h : decode (w :: ws) = .instr i rest) :
    i.length = wordLength w ∧ rest = (w :: ws).drop (wordLength w) := by
  obtain ⟨-, hwords⟩ := encode_of_decode h
  have hhead : (encode i).head? = some w := by
    rw [← List.head?_append_of_ne_nil _ (encode_ne_nil i), hwords]
    rfl
  have hlength := length_eq_wordLength hhead
  exact ⟨hlength, by rw [← hwords, ← hlength, Instr.length, List.drop_left]⟩

/-- A list that holds as many words as its first word asks for decodes (30_encoding.md R59). -/
theorem decode_of_wordLength_le {w : Word} {ws : List Word} (h : wordLength w ≤ (w :: ws).length) :
    ∃ i rest, decode (w :: ws) = .instr i rest := by
  unfold wordLength at h
  rw [List.length_cons] at h
  cases hform : basicForm (opField w) with
  | none =>
    have hop := (basicForm_none (opField w)).1 hform
    rw [if_pos hop] at h
    obtain ⟨s, hs⟩ := decodeOperand_some (bField w) ws (by omega)
    simp only [decode_cons_nonBasic hop, decodeNonBasic, hs]
    split <;> exact ⟨_, _, rfl⟩
  | some form =>
    have hop : opField w ≠ 0x0#4 := fun e => by simp [(basicForm_none _).2 e] at hform
    rw [if_neg hop] at h
    obtain ⟨d, hd⟩ := decodeOperand_some (aField w) ws (by omega)
    obtain ⟨s, hs⟩ := decodeOperand_some (bField w) (ws.drop (needsExtra (aField w))) (by rw [List.length_drop]; omega)
    simp only [decode_cons_basic hform, decodeBasic, hd, hs]
    exact ⟨_, _, rfl⟩

/-- Settles O5: three words are enough for every first word, and the round trip gives the length. -/
theorem everyWordDecodesWithItsLength : Obligations.EveryWordDecodesWithItsLength := by
  intro w x y
  have hbounds := wordLength_bounds w
  obtain ⟨i, rest, h⟩ := decode_of_wordLength_le (w := w) (ws := [x, y]) hbounds.2
  obtain ⟨hlength, hrest⟩ := length_of_decode h
  exact ⟨i, rest, h, hlength, hrest, hbounds⟩

/-! ### Words as numbers -/

theorem encodeBasic_toNat (op : Opcode) (d b : Operand) :
    (encodeBasic op d b).map BitVec.toNat =
      (b.code.toNat * 1024 + d.code.toNat * 16 + op.toNat) :: (d.extraWords ++ b.extraWords).map BitVec.toNat := by
  rw [encodeBasic, List.map_cons, assembleWord_toNat]

theorem encodeNonBasic_toNat (n : BitVec 6) (b : Operand) :
    (encodeNonBasic n b).map BitVec.toNat = (b.code.toNat * 1024 + n.toNat * 16) :: b.extraWords.map BitVec.toNat := by
  simp [encodeNonBasic, assembleWord_toNat]

/-- Settles O2: the number of each format's first word, at each opcode of the map. -/
theorem encodingsFollowTheOpcodeMap : Obligations.EncodingsFollowTheOpcodeMap := by
  refine ⟨fun op form hmem d b => ?_, encodeNonBasic_toNat jsrSubop, encodeNonBasic_toNat⟩
  fin_cases hmem <;> exact encodeBasic_toNat _ d b

/-- Settles O1, by running the decoder on the ten lists of words. -/
theorem specEncodingsDecode : Obligations.SpecEncodingsDecode := by
  refine ⟨?_, ?_, ?_, ?_, ?_, ?_, ?_, ?_, ?_, ?_⟩ <;> decide

/-! ### A literal destination (30_encoding.md R60) -/

/-- Settles O25: skipped or suppressed, the instruction leaves the state at dispatch as it is. -/
theorem literalDestinationIsANoOp : Obligations.LiteralDestinationIsANoOp := by
  intro s i rest d b f h ha hd
  cases hs : s.skip with
  | skipNext => exact step_of_skipNext h hs
  | normal =>
    have hskip : (advance i s).setSkip .normal = advance i s := by rw [← hs]; rfl
    calc step s = exec i (advance i s) := step_of_normal h hs
      _ = .next (advance i s) := by rw [exec_alu ha, execNonConditional_literal _ _ _ _ hd]
      _ = .next ((advance i s).setSkip .normal) := by rw [hskip]

end Sys2Proof.Machine
end

section
/-! PROOFS. The rules of 40_operands.md: reads and writes of Locations, the table of operand codes, and the stack
operands of one instruction one after the other. -/

namespace Sys2Proof.Machine

/-! ### Locations (40_operands.md R71, R72) -/

/-- A write to a Location that is no literal, read back at any Location. -/
theorem State.locRead_locWrite_of_ne_lit (s : State) {loc : Location} (h : ∀ u, loc ≠ .lit u) (other : Location)
    (v : Word) : (s.locWrite loc v).locRead other = if other = loc then v else s.locRead other := by
  rw [State.locRead_locWrite, eq_comm]
  cases loc with
  | lit u => exact absurd rfl (h u)
  | reg id => simp only [eq_comm]
  | mem a => simp only [eq_comm]

/-- Settles O14, by the law of a read after a write. -/
theorem locationsReadAndWrite : Obligations.LocationsReadAndWrite :=
  ⟨fun _ _ _ _ => ⟨rfl, rfl, rfl, rfl, rfl, rfl, rfl⟩,
    fun s loc other v h => ⟨s.locRead_locWrite_of_ne_lit h other v, s.locWrite_skip loc v⟩⟩

/-! ### The table of operand codes (40_operands.md R90) -/

/-- Resolving an operand moves SP, when it commits, and nothing else. -/
theorem State.resolveEffect_eq_setSp (s : State) (op : Operand) (commit : Bool) :
    s.resolveEffect op commit = s.setSp (if commit then s.sp + stackShift op else s.sp) := by
  cases commit <;> rfl

section
variable (s : State) (commit : Bool) (op : Operand)
  (hext : op.extraWords = [] ∨ op.extraWords = [s.readMem s.pc])
include hext

/-- The row of an operand's code, its extra word, if any, being the one at PC: the operand's own Location, length and
effect on SP. -/
theorem resolvesTo_code :
    ResolvesTo op.code commit s (s.locOf op) op.extraWords.length
      (if commit then s.sp + stackShift op else s.sp) := by
  have hop : operandOf op.code (s.readMem s.pc) = op := operandOf_code op _ hext
  refine ⟨?_, op, ?_, rfl, s.resolveEffect_eq_setSp op commit⟩
  · rw [resolveCode_eq, hop, op.extraWords_length, State.resolveEffect_eq_setSp]
    rfl
  · rw [decodeOperand_cons, hop, op.extraWords_length]

/-- The row of an operand that is no stack operand: SP stays, committed or not. -/
theorem resolvesTo_code_of_no_shift (hshift : stackShift op = 0#16) :
    ResolvesTo op.code commit s (s.locOf op) op.extraWords.length s.sp := by
  simpa [hshift] using resolvesTo_code s commit op hext

end

theorem reg_code (r : Reg) : (Operand.reg r).code = BitVec.ofNat 6 r.index.toNat := by
  cases r <;> rfl

theorem indirect_code (r : Reg) : (Operand.indirect r).code = BitVec.ofNat 6 (0x08 + r.index.toNat) := by
  cases r <;> rfl

theorem indexed_code (r : Reg) (nw : Word) : (Operand.indexed r nw).code = BitVec.ofNat 6 (0x10 + r.index.toNat) := by
  cases r <;> rfl

theorem smallLiteral_code {n : Nat} (h : n < 32) :
    (Operand.smallLiteral (BitVec.ofNat 5 n)).code = BitVec.ofNat 6 (0x20 + n) := by
  rw [Operand.code, BitVec.setWidth_ofNat_of_le_of_lt (by decide) h, ← BitVec.ofNat_add]

theorem locOf_smallLiteral (s : State) {n : Nat} (h : n < 32) :
    s.locOf (.smallLiteral (BitVec.ofNat 5 n)) = .lit (BitVec.ofNat 16 n) := by
  rw [State.locOf, BitVec.setWidth_ofNat_of_le_of_lt (by decide) h]

theorem add_stackShift_push (w : Word) : w + stackShift .push = w - 1#16 := by
  simp only [stackShift]
  bv_omega

/-- Settles O16, row by row: each code is that of its operand form, and only POP and PUSH move SP. -/
theorem operandCodesResolveByTheTable : Obligations.OperandCodesResolveByTheTable := by
  intro commit s
  refine ⟨fun r => ?_, fun r => ?_, fun r => ?_, ?_, ?_, ?_, ?_, ?_, ?_, ?_, ?_, fun n hn => ?_⟩
  · exact reg_code r ▸ resolvesTo_code_of_no_shift s commit (.reg r) (.inl rfl) rfl
  · exact indirect_code r ▸ resolvesTo_code_of_no_shift s commit (.indirect r) (.inl rfl) rfl
  · exact indexed_code r (s.readMem s.pc) ▸
      resolvesTo_code_of_no_shift s commit (.indexed r (s.readMem s.pc)) (.inr rfl) rfl
  · exact resolvesTo_code s commit .pop (.inl rfl)
  · exact resolvesTo_code_of_no_shift s commit .peek (.inl rfl) rfl
  · have row := resolvesTo_code s commit .push (.inl rfl)
    rw [add_stackShift_push] at row
    exact row
  · exact resolvesTo_code_of_no_shift s commit .sp (.inl rfl) rfl
  · exact resolvesTo_code_of_no_shift s commit .pc (.inl rfl) rfl
  · exact resolvesTo_code_of_no_shift s commit .o (.inl rfl) rfl
  · exact resolvesTo_code_of_no_shift s commit (.nextIndirect (s.readMem s.pc)) (.inr rfl) rfl
  · exact resolvesTo_code_of_no_shift s commit (.nextLiteral (s.readMem s.pc)) (.inr rfl) rfl
  · exact smallLiteral_code hn ▸ locOf_smallLiteral s hn ▸
      resolvesTo_code_of_no_shift s commit (.smallLiteral (BitVec.ofNat 5 n)) (.inl rfl) rfl

/-! ### The stack operands of one instruction (40_operands.md R80, R88) -/

theorem add_stackShift_pop (w : Word) : w + stackShift .pop = w + 1#16 := rfl

theorem add_stackShift_of_no_shift {op : Operand} (h : stackShift op = 0#16) (w : Word) : w + stackShift op = w := by
  rw [h, BitVec.add_zero]

/-- Both operands resolved with their effects: the source sees SP as the destination has left it. -/
theorem resolveBoth_commit (d b : Operand) (s : State) :
    resolveBoth d b true s =
      ⟨s.locOf d, (s.setSp (s.sp + stackShift d)).locOf b, s.setSp (s.sp + stackShift d + stackShift b)⟩ := rfl

/-- SET PUSH, SP stores the SP that PUSH has already moved. -/
theorem exec_set_push_sp (s : State) :
    ∃ t, exec (.set .push .sp) s = .next t ∧ t.readMem (s.sp - 1#16) = s.sp - 1#16 ∧ t.sp = s.sp - 1#16 := by
  obtain ⟨t, ht, effect⟩ := exec_alu_effect (i := .set .push .sp) rfl s rfl
  have moved : s.sp + stackShift .push + stackShift .sp = s.sp - 1#16 := by
    rw [add_stackShift_of_no_shift rfl, add_stackShift_push]
  have stored : t.readMem (s.sp - 1#16) = s.sp + stackShift .push + stackShift .sp :=
    (effect.mem (s.sp - 1#16)).trans (if_pos rfl)
  have spAfter : t.sp = s.sp + stackShift .push + stackShift .sp := effect.sp
  exact ⟨t, ht, stored.trans moved, spAfter.trans moved⟩

/-- SET SP, POP: the write to SP comes after the move of POP. -/
theorem exec_set_sp_pop (s : State) : ∃ t, exec (.set .sp .pop) s = .next t ∧ t.sp = s.readMem s.sp := by
  obtain ⟨t, ht, effect⟩ := exec_alu_effect (i := .set .sp .pop) rfl s rfl
  have source : sourceValue .sp .pop s = s.readMem s.sp := by
    simp [sourceValue, State.locRead, State.locOf, stackShift]
  exact ⟨t, ht, (effect.sp.trans (if_pos rfl)).trans source⟩

theorem addAlu_result (d s : Word) : (addAlu d s).result = d + s := rfl

/-- ADD POP, 1 adds in place: POP resolves once, and the same cell is read and written. -/
theorem exec_add_pop_one (s : State) :
    ∃ t, exec (.add .pop (.smallLiteral 1#5)) s = .next t ∧ t.readMem s.sp = s.readMem s.sp + 1#16 ∧
      t.sp = s.sp + 1#16 := by
  obtain ⟨t, ht, effect⟩ := exec_alu_effect (i := .add .pop (.smallLiteral 1#5)) rfl s rfl
  have dest : destValue .pop (.smallLiteral 1#5) s = s.readMem s.sp := rfl
  have source : sourceValue .pop (.smallLiteral 1#5) s = 1#16 := rfl
  have stored := (effect.mem s.sp).trans (if_pos rfl)
  have spAfter : t.sp = s.sp + stackShift .pop + stackShift (.smallLiteral 1#5) := effect.sp
  refine ⟨t, ht, ?_, ?_⟩
  · rw [stored, addAlu_result, dest, source]
  · rw [spAfter, add_stackShift_of_no_shift rfl, add_stackShift_pop]

/-- Settles O17: SP after both operands is a sum of their shifts, and the three instructions follow from the effect of
SET and ADD. -/
theorem stackOperandsActInOrder : Obligations.StackOperandsActInOrder := by
  intro s
  have down_up : s.sp - 1#16 + 1#16 = s.sp := BitVec.sub_add_cancel s.sp 1#16
  have up_down : s.sp + 1#16 - 1#16 = s.sp := BitVec.add_sub_cancel s.sp 1#16
  have up_up : s.sp + 1#16 + 1#16 = s.sp + 2#16 := BitVec.add_assoc s.sp 1#16 1#16
  have down_down : s.sp - 1#16 - 1#16 = s.sp - 2#16 := by bv_omega
  have at_peek : ∀ w : Word, w + stackShift .peek = w := add_stackShift_of_no_shift rfl
  refine ⟨?_, ?_, ?_, ?_, ?_, ?_, exec_set_push_sp s, exec_set_sp_pop s, exec_add_pop_one s⟩
  · simp [resolveBoth_commit, State.locOf, add_stackShift_push, add_stackShift_pop, down_up]
  · simp [resolveBoth_commit, State.locOf, add_stackShift_push, add_stackShift_pop, up_down]
  · simp [resolveBoth_commit, State.locOf, add_stackShift_pop, up_up]
  · simp [resolveBoth_commit, State.locOf, add_stackShift_push, down_down]
  · simp [resolveBoth_commit, State.locOf, add_stackShift_push, at_peek]
  · simp [resolveBoth_commit, State.locOf, add_stackShift_pop, at_peek]

end Sys2Proof.Machine
end

section
/-! PROOFS. The tick sequencer (41_tick_sequencer.md): the word-by-word pseudocode of R100, which `step` follows in every
state, what one step does to PC and to the skip state, and the two loops the spec derives. -/

namespace Sys2Proof.Machine

/-! ### The instruction at PC -/

/-- In every state the words at PC decode (30_encoding.md R59). -/
theorem exists_decode_fetchWords (s : State) : ∃ i rest, decode (fetchWords s) = .instr i rest := by
  obtain ⟨i, rest, h, -⟩ :=
    everyWordDecodesWithItsLength (s.readMem s.pc) (s.readMem (s.pc + 1#16)) (s.readMem (s.pc + 2#16))
  exact ⟨i, rest, h⟩

/-- The state with PC past the instruction at PC, by the length its first word gives (41_tick_sequencer.md R104). -/
def State.pastWords (s : State) : State := s.setPc (s.pc + BitVec.ofNat 16 (wordLength (s.readMem s.pc)))

@[simp] theorem State.pastWords_skip (s : State) : s.pastWords.skip = s.skip := rfl

theorem advance_of_decode {s : State} {i : Instr} {rest : List Word} (h : decode (fetchWords s) = .instr i rest) :
    advance i s = s.pastWords := by
  rw [advance, (length_of_decode h).1, State.pastWords]

/-- How far after the instruction word the extra word of field `b` stands (30_encoding.md R56). -/
def sourceOffset (w : Word) : Nat := if opField w = 0x0#4 then 1 else 1 + needsExtra (aField w)

theorem wordLength_eq_sourceOffset_add (w : Word) : wordLength w = sourceOffset w + needsExtra (bField w) := by
  unfold wordLength sourceOffset
  split <;> rfl

/-- The operand of field `a` of the word at PC. -/
def State.fetchedDst (s : State) : Operand := operandOf (aField (s.readMem s.pc)) (s.readMem (s.pc + 1#16))

/-- The operand of field `b` of the word at PC. -/
def State.fetchedSrc (s : State) : Operand :=
  operandOf (bField (s.readMem s.pc)) (s.readMem (s.pc + BitVec.ofNat 16 (sourceOffset (s.readMem s.pc))))

theorem opField_ne_zero_of_basicForm {op : Opcode} {form : Operand → Operand → Instr} (h : basicForm op = some form) :
    op ≠ 0x0#4 := by
  rintro rfl
  cases h

section
variable {s : State} {form : Operand → Operand → Instr}

theorem decode_fetchWords_nonBasic (h : opField (s.readMem s.pc) = 0x0#4) :
    ∃ rest, decode (fetchWords s) = .instr
      (if aField (s.readMem s.pc) = jsrSubop then .jsr s.fetchedSrc
        else .reservedNonbasic (aField (s.readMem s.pc)) s.fetchedSrc) rest := by
  have hoffset : sourceOffset (s.readMem s.pc) = 1 := if_pos h
  simp only [fetchWords, decode_cons_nonBasic h, decodeNonBasic, decodeOperand_cons, State.fetchedSrc, hoffset]
  split <;> exact ⟨_, rfl⟩

theorem decode_fetchWords_basic (h : basicForm (opField (s.readMem s.pc)) = some form) :
    ∃ rest, decode (fetchWords s) = .instr (form s.fetchedDst s.fetchedSrc) rest := by
  have hoffset : sourceOffset (s.readMem s.pc) = 1 + needsExtra (aField (s.readMem s.pc)) :=
    if_neg (opField_ne_zero_of_basicForm h)
  have hextra := needsExtra_le_one (aField (s.readMem s.pc))
  simp only [fetchWords, decode_cons_basic h, decodeBasic, decodeOperand_cons, State.fetchedDst, State.fetchedSrc,
    hoffset]
  generalize needsExtra (aField (s.readMem s.pc)) = k at hextra ⊢
  interval_cases k <;> simp only [List.drop_zero, List.drop_succ_cons, decodeOperand_cons] <;> exact ⟨_, rfl⟩

end

/-! ### Dispatch by opcode -/

/-- A no-op leaves the state at dispatch as it is (41_tick_sequencer.md R103 cases 2 and 3). -/
theorem exec_of_isNoOp {i : Instr} (h : isNoOp i = true) (s : State) : exec i s = .next s := by
  obtain ⟨t, ht, effect⟩ := exec_effect i s
  rw [ht, effect.eq_of_isNoOp h]

section
variable {op : Opcode} {form : Operand → Operand → Instr}

/-- What each basic opcode dispatches: the template of opcodes 0x1 to 0xB or that of 0xC to 0xF (30_encoding.md R54). -/
theorem dispatchBasic_template (h : basicForm op = some form) :
    (op ≤ 0xB#4 ∧ ∃ f, (∀ d b, aluOf (form d b) = some (d, b, f)) ∧ dispatchBasic op = aluTemplate f) ∨
      (¬ op ≤ 0xB#4 ∧ ∃ c, (∀ d b, testOf (form d b) = some (d, b, c)) ∧ dispatchBasic op = condTemplate c) := by
  obtain ⟨n, rfl⟩ : ∃ n : Fin 16, op = BitVec.ofFin n := ⟨op.toFin, rfl⟩
  fin_cases n <;> cases h
  -- The goals stand in the order of the opcodes, 0x1 to 0xB before the four tests.
  iterate 11 exact .inl ⟨by decide, _, fun _ _ => rfl, rfl⟩
  all_goals exact .inr ⟨by decide, _, fun _ _ => rfl, rfl⟩

/-- A basic instruction that is no no-op runs the operation of its opcode on its resolved operands. -/
theorem exec_eq_dispatchBasic (h : basicForm op = some form) {d b : Operand} (hn : isNoOp (form d b) = false)
    (s : State) :
    exec (form d b) s = .next (dispatchBasic op (resolveBoth d b true s).dst (resolveBoth d b true s).src
      (resolveBoth d b true s).state) := by
  obtain ⟨-, f, hf, hdispatch⟩ | ⟨-, c, hc, hdispatch⟩ := dispatchBasic_template h
  · have hd : isLiteral d = false := by rw [← isNoOp_of_aluOf (hf d b), hn]
    rw [exec_alu (hf d b), execNonConditional_dispatch _ _ _ _ hd, hdispatch]
  · rw [exec_test (hc d b), hdispatch]
    rfl

end

/-! ### The `suppress` signal (41_tick_sequencer.md R103) -/

/-- The `suppress` signal of the word at PC. -/
def State.suppresses (s : State) : Bool :=
  suppressed s.skip (opField (s.readMem s.pc)) (aField (s.readMem s.pc))

/-- The signal is raised for a skipped instruction and for a no-op, and for no other. -/
theorem suppresses_of_decode {s : State} {i : Instr} {rest : List Word} (h : decode (fetchWords s) = .instr i rest) :
    s.suppresses = (decide (s.skip = .skipNext) || isNoOp i) := by
  unfold State.suppresses
  cases hform : basicForm (opField (s.readMem s.pc)) with
  | none =>
    have hop := (basicForm_none _).1 hform
    obtain ⟨rest', h'⟩ := decode_fetchWords_nonBasic hop
    cases h.symm.trans h'
    by_cases ha : aField (s.readMem s.pc) = jsrSubop
    · simp [suppressed, hop, ha, isNoOp, aluOf, jsrSubop]
    · have hsubop : aField (s.readMem s.pc) ≠ 0x01#6 := ha
      simp [suppressed, hop, ha, hsubop, isNoOp]
  | some form =>
    have hop := opField_ne_zero_of_basicForm hform
    have hpos : 0x1#4 ≤ opField (s.readMem s.pc) := by bv_omega
    obtain ⟨rest', h'⟩ := decode_fetchWords_basic hform
    cases h.symm.trans h'
    obtain ⟨hle, f, hf, -⟩ | ⟨hle, c, hc, -⟩ := dispatchBasic_template hform
    · rw [isNoOp_of_aluOf (hf _ _)]
      simp [suppressed, hop, hpos, hle, State.fetchedDst, isLiteral_operandOf]
    · obtain ⟨-, -, hno, -⟩ := classes_of_testOf (hc s.fetchedDst s.fetchedSrc)
      simp [suppressed, hop, hle, hno]

/-! ### The pseudocode of R100, in terms of the fetched operands -/

/-- Resolving the two codes of a basic word one after the other is resolving its two operands, with PC past both extra
words (40_operands.md R88). -/
theorem resolveCode_resolveCode (a b : OperandCode) (commit : Bool) (s : State) :
    (⟨(resolveCode a commit s).1, (resolveCode b commit (resolveCode a commit s).2).1,
        (resolveCode b commit (resolveCode a commit s).2).2⟩ : Resolved) =
      resolveBoth (operandOf a (s.readMem s.pc)) (operandOf b (s.readMem (s.pc + BitVec.ofNat 16 (needsExtra a))))
        commit (s.setPc (s.pc + BitVec.ofNat 16 (needsExtra a) + BitVec.ofNat 16 (needsExtra b))) := by
  have hcomm : ∀ v w, (s.setPc v).setSp w = (s.setSp w).setPc v := fun _ _ => rfl
  simp [resolveCode_eq, resolveBoth, State.resolveEffect_eq_setSp, hcomm]

theorem State.setSkip_normal_of_eq (s : State) (hs : s.skip = .normal) : s.setSkip .normal = s := by
  rw [← hs, State.setSkip_same]

section
variable {s : State}

theorem resolveCode_fetched_nonBasic (h : opField (s.readMem s.pc) = 0x0#4) (commit : Bool) :
    resolveCode (bField (s.readMem s.pc)) commit (nextWord s).2 =
      (s.locOf s.fetchedSrc, s.pastWords.resolveEffect s.fetchedSrc commit) := by
  have hoffset : sourceOffset (s.readMem s.pc) = 1 := if_pos h
  simp only [resolveCode_eq, wordLength_eq_sourceOffset_add, State.fetchedSrc, State.pastWords, hoffset,
    BitVec.ofNat_add, ← BitVec.add_assoc, nextWord, State.setPc_locOf]
  rfl

theorem resolveCode_fetched_basic (h : opField (s.readMem s.pc) ≠ 0x0#4) (commit : Bool) :
    let D := resolveCode (aField (s.readMem s.pc)) commit (nextWord s).2
    let S := resolveCode (bField (s.readMem s.pc)) commit D.2
    (⟨D.1, S.1, S.2⟩ : Resolved) = resolveBoth s.fetchedDst s.fetchedSrc commit s.pastWords := by
  have hoffset : sourceOffset (s.readMem s.pc) = 1 + needsExtra (aField (s.readMem s.pc)) := if_neg h
  simp only [resolveCode_resolveCode, wordLength_eq_sourceOffset_add, State.fetchedDst, State.fetchedSrc,
    State.pastWords, hoffset, BitVec.ofNat_add, ← BitVec.add_assoc]
  rfl

/-- `Tick()` on a non-basic word. -/
theorem tick_nonBasic (hop : opField (s.readMem s.pc) = 0x0#4) :
    tick s =
      let S := (s.locOf s.fetchedSrc, s.pastWords.resolveEffect s.fetchedSrc (!s.suppresses))
      if s.skip = .skipNext then S.2.setSkip .normal
      else if s.suppresses then S.2
      else opJsr S.1 S.2 := by
  rw [← resolveCode_fetched_nonBasic hop]
  exact if_pos hop

/-- `Tick()` on a basic word. -/
theorem tick_basic (hop : opField (s.readMem s.pc) ≠ 0x0#4) :
    tick s =
      let R := resolveBoth s.fetchedDst s.fetchedSrc (!s.suppresses) s.pastWords
      if s.skip = .skipNext then R.state.setSkip .normal
      else if s.suppresses then R.state
      else dispatchBasic (opField (s.readMem s.pc)) R.dst R.src R.state := by
  rw [← resolveCode_fetched_basic hop]
  exact if_neg hop

/-- A suppressed tick moves PC past the instruction's words and leaves no skip pending (R103, R105). -/
theorem tick_of_suppresses (h : s.suppresses = true) : tick s = s.pastWords.setSkip .normal := by
  have resolved : tick s = if s.skip = .skipNext then s.pastWords.setSkip .normal else s.pastWords := by
    by_cases hop : opField (s.readMem s.pc) = 0x0#4
    · simp [tick_nonBasic hop, h]
    · simp [tick_basic hop, h, resolveBoth]
  cases hs : s.skip with
  | skipNext => rw [resolved, if_pos hs]
  | normal => rw [resolved, if_neg (by simp [hs]), s.pastWords.setSkip_normal_of_eq hs]

/-- A suppressed step does the same. -/
theorem step_of_suppresses (h : s.suppresses = true) : step s = .next (s.pastWords.setSkip .normal) := by
  obtain ⟨i, rest, hi⟩ := exists_decode_fetchWords s
  cases hs : s.skip with
  | skipNext => rw [step_of_skipNext hi hs, advance_of_decode hi]
  | normal =>
    have hno : isNoOp i = true := by simpa [suppresses_of_decode hi, hs] using h
    rw [step_of_normal hi hs, exec_of_isNoOp hno, advance_of_decode hi, s.pastWords.setSkip_normal_of_eq hs]

/-- What is not suppressed is not skipped and no no-op, and a step dispatches it (R100). -/
theorem dispatched_of_not_suppresses (h : s.suppresses = false) {i : Instr} {rest : List Word}
    (hi : decode (fetchWords s) = .instr i rest) :
    s.skip = .normal ∧ isNoOp i = false ∧ step s = exec i s.pastWords := by
  rw [suppresses_of_decode hi, Bool.or_eq_false_iff, decide_eq_false_iff_not] at h
  obtain ⟨hskip, hno⟩ := h
  have hs : s.skip = .normal := by
    cases hs : s.skip with
    | normal => rfl
    | skipNext => exact absurd hs hskip
  exact ⟨hs, hno, by rw [step_of_normal hi hs, advance_of_decode hi]⟩

/-- A non-basic word that is not suppressed is a JSR, to the Location that `Tick()` resolves (R107). -/
theorem step_eq_tick_of_nonBasic (h : s.suppresses = false) (hop : opField (s.readMem s.pc) = 0x0#4) :
    step s = .next (tick s) := by
  obtain ⟨rest, hi⟩ := decode_fetchWords_nonBasic hop
  obtain ⟨hs, hno, hstep⟩ := dispatched_of_not_suppresses h hi
  by_cases ha : aField (s.readMem s.pc) = jsrSubop
  · rw [hstep, if_pos ha, tick_nonBasic hop, hs, h]
    rfl
  · rw [if_neg ha] at hno
    cases hno

/-- A basic word that is not suppressed runs its operation on the Locations that `Tick()` resolves (R107). -/
theorem step_eq_tick_of_basic (h : s.suppresses = false) {form : Operand → Operand → Instr}
    (hform : basicForm (opField (s.readMem s.pc)) = some form) : step s = .next (tick s) := by
  obtain ⟨rest, hi⟩ := decode_fetchWords_basic hform
  obtain ⟨hs, hno, hstep⟩ := dispatched_of_not_suppresses h hi
  rw [hstep, exec_eq_dispatchBasic hform hno, tick_basic (opField_ne_zero_of_basicForm hform), hs, h]
  rfl

end

/-- Settles O20: the `suppress` signal tells the instructions that only move PC from those that are dispatched, and these
go by the two formats. -/
theorem stepIsTheSpecsTick : Obligations.StepIsTheSpecsTick := by
  intro s
  cases h : s.suppresses with
  | true => rw [step_of_suppresses h, tick_of_suppresses h]
  | false =>
    cases hform : basicForm (opField (s.readMem s.pc)) with
    | none => exact step_eq_tick_of_nonBasic h ((basicForm_none _).1 hform)
    | some form => exact step_eq_tick_of_basic h hform

/-! ### What a step answers -/

/-- Settles O18: the two branches of a step that has decoded its instruction. -/
theorem stepRunsTheDecodedInstruction : Obligations.StepRunsTheDecodedInstruction :=
  fun _ _ _ h => ⟨step_of_normal h, step_of_skipNext h⟩

/-- Settles O21: what a dispatched instruction and a step lead to exists, and an outcome is one state. -/
theorem everyStepAnswersANextState : Obligations.EveryStepAnswersANextState := by
  refine ⟨fun s => ?_, fun i s => ?_⟩
  · obtain ⟨i, rest, hi⟩ := exists_decode_fetchWords s
    obtain ⟨t, ht, -⟩ := step_effect hi
    exact ⟨t, ht, fun u hu => by cases ht.symm.trans hu; rfl⟩
  · obtain ⟨t, ht, -⟩ := exec_effect i s
    exact ⟨t, ht⟩

/-- Settles O22: a pending skip raises the `suppress` signal. -/
theorem skippedInstructionOnlyMovesPc : Obligations.SkippedInstructionOnlyMovesPc := by
  intro s hs
  exact step_of_suppresses (by simp [State.suppresses, suppressed, hs])

/-! ### The skip state (41_tick_sequencer.md R105) -/

/-- A test fails exactly when its condition answers false. -/
theorem testFails_iff_of_testOf {i : Instr} {d b : Operand} {c : Word → Word → Bool} (h : testOf i = some (d, b, c))
    (s : State) : testFails i s ↔ ¬ c (destValue d b s) (sourceValue d b s) = true := by
  cases i <;> simp only [testOf, Option.some.injEq, Prod.mk.injEq, reduceCtorEq] at h <;> obtain ⟨rfl, rfl, rfl⟩ := h <;>
    simp [testFails, ifeCond, ifnCond, ifgCond, ifbCond]

theorem exists_testOf_of_testFails {i : Instr} {s : State} (h : testFails i s) :
    ∃ d b c, testOf i = some (d, b, c) := by
  cases i with
  | ife d b | ifn d b | ifg d b | ifb d b => exact ⟨d, b, _, rfl⟩
  | _ => exact h.elim

/-- Dispatch sets the skip exactly for a test that fails. -/
theorem ExecEffect.skip_iff {i : Instr} {s t : State} (h : ExecEffect i s t) (hs : s.skip = .normal) :
    t.skip = .skipNext ↔ testFails i s := by
  have kept : t.skip = s.skip → ¬ testFails i s → (t.skip = .skipNext ↔ testFails i s) := fun ht hn => by
    simp [ht, hs, hn]
  have noTest : testFails i s → aluOf i = none ∧ isNoOp i = false ∧ ∀ x, i ≠ .jsr x := fun hf => by
    obtain ⟨_, _, _, hc⟩ := exists_testOf_of_testFails hf
    exact (classes_of_testOf hc).2
  cases h with
  | noOp hno => exact kept rfl fun hf => by simp [(noTest hf).2.1] at hno
  | alu ha _ effect => exact kept effect.skip fun hf => by simp [(noTest hf).1] at ha
  | jsr hj effect => exact kept effect.skip fun hf => (noTest hf).2.2 _ hj
  | test hc effect =>
    rw [testFails_iff_of_testOf hc]
    refine ⟨fun ht hcond => ?_, effect.skipWhenFalse⟩
    rw [effect.skipWhenTrue hcond, hs] at ht
    cases ht

/-- Settles O23, by the cases of a step. -/
theorem skipIsSetByFailedTestsOnly : Obligations.SkipIsSetByFailedTestsOnly := by
  intro s i rest h
  obtain ⟨t, ht, effect⟩ := step_effect h
  refine ⟨t, ht, ?_⟩
  cases effect with
  | skipped hs => simp [hs]
  | dispatched hs effect =>
    exact ⟨fun ht => ⟨hs, (effect.skip_iff hs).1 ht⟩, fun ⟨_, hfails⟩ => (effect.skip_iff hs).2 hfails⟩

/-! ### PC (41_tick_sequencer.md R106, R108) -/

/-- Only code 0x1C resolves to PC (40_operands.md R90). -/
theorem State.locOf_eq_pc_iff (s : State) (op : Operand) : s.locOf op = .reg .pc ↔ op = .pc := by
  cases op <;> simp [State.locOf]

theorem writtenPc_of_aluOf {i : Instr} {d b : Operand} {f : Word → Word → AluResult} (h : aluOf i = some (d, b, f))
    (s : State) :
    writtenPc i s = if d = .pc then some (f (destValue d b s) (sourceValue d b s)).result else none := by
  cases i <;> simp_all [aluOf, writtenPc]

theorem writtenPc_of_testOf {i : Instr} {d b : Operand} {c : Word → Word → Bool} (h : testOf i = some (d, b, c))
    (s : State) : writtenPc i s = none := by
  cases i <;> simp_all [testOf, aluOf, writtenPc]

/-- PC is no literal, so a no-op does not write it. -/
theorem writtenPc_of_isNoOp {i : Instr} (h : isNoOp i = true) (s : State) : writtenPc i s = none := by
  obtain ⟨b, rfl⟩ | ⟨n, b, rfl⟩ | ⟨d, b, f, ha⟩ | ⟨d, b, c, hc⟩ := instr_classes i
  · cases h
  · rfl
  · have hd : d ≠ .pc := by
      rintro rfl
      simp [isNoOp_of_aluOf ha, isLiteral] at h
    rw [writtenPc_of_aluOf ha, if_neg hd]
  · exact writtenPc_of_testOf hc s

/-- PC after a dispatched instruction: the written value, or else as it was. -/
theorem ExecEffect.pc_eq {i : Instr} {s t : State} (h : ExecEffect i s t) : t.pc = (writtenPc i s).getD s.pc := by
  cases h with
  | noOp hno => rw [writtenPc_of_isNoOp hno]; rfl
  | jsr hj effect => rw [effect.pc, hj]; rfl
  | test hc effect => rw [effect.pc, writtenPc_of_testOf hc]; rfl
  | @alu d b f _ ha _ effect =>
    rw [effect.pc, writtenPc_of_aluOf ha]
    simp only [State.locOf_eq_pc_iff]
    split <;> rfl

/-- Settles O24, by the cases of a step. -/
theorem pcAfterOneTick : Obligations.PcAfterOneTick := by
  intro s i rest h
  obtain ⟨t, ht, effect⟩ := step_effect h
  refine ⟨t, ht, ?_⟩
  cases effect with
  | skipped hs => exact ⟨fun _ => rfl, fun hn => by simp [hs] at hn⟩
  | dispatched hs effect => exact ⟨fun hn => by simp [hs] at hn, fun _ => effect.pc_eq⟩

/-! ### The two loops of the spec (41_tick_sequencer.md R110, R111) -/

/-- The word 0x0000 is a reserved word: a step over it moves PC by one. -/
theorem step_zero_word {s : State} (hs : s.skip = .normal) (hw : s.readMem s.pc = 0x0000#16) :
    step s = .next (s.setPc (s.pc + 1#16)) := by
  have h : s.suppresses = true := by
    rw [State.suppresses, hw, hs]
    decide
  rw [step_of_suppresses h, s.pastWords.setSkip_normal_of_eq hs, State.pastWords, hw]
  rfl

/-- Settles O11, by induction on the number of ticks. -/
theorem zeroMemorySlides : Obligations.ZeroMemorySlides := by
  intro n
  induction n with
  | zero => exact fun s _ _ => by simp [run]
  | succ n ih =>
    intro s hzero hs
    have hpc : s.pc + BitVec.ofNat 16 (n + 1) = s.pc + 1#16 + BitVec.ofNat 16 n := by
      rw [Nat.add_comm, BitVec.ofNat_add, BitVec.add_assoc]
    calc run (n + 1) s
      _ = run n (s.setPc (s.pc + 1#16)) := by simp only [run, step_zero_word hs (hzero s.pc)]
      _ = .next (s.setPc (s.pc + 1#16 + BitVec.ofNat 16 n)) := ih (s.setPc (s.pc + 1#16)) hzero hs
      _ = .next (s.setPc (s.pc + BitVec.ofNat 16 (n + 1))) := by rw [hpc]

theorem subAlu_result (d s : Word) : (subAlu d s).result = d - s := by
  simp only [subAlu]
  bv_omega

theorem subOverflow_one (d : Word) : subOverflow d 1#16 = if d = 0x0000#16 then 0xFFFF#16 else 0x0000#16 := by
  have hborrow : (d.toNat : Int) - ((1#16).toNat : Int) < 0 ↔ d = 0x0000#16 := by
    rw [BitVec.toNat_eq]
    simp
  simp only [subOverflow, hborrow]

/-- SUB PC, 1 at dispatch: PC is back at the address before it, and O has the borrow of PC. -/
theorem exec_sub_pc_one (s : State) :
    exec (.sub .pc (.smallLiteral 1#5)) s =
      .next ((s.setPc (s.pc - 1#16)).setO (if s.pc = 0x0000#16 then 0xFFFF#16 else 0x0000#16)) := by
  have hstate : (resolveBoth .pc (.smallLiteral 1#5) true s).state = s := by
    rw [resolveBoth_state, add_stackShift_of_no_shift rfl, add_stackShift_of_no_shift rfl, State.setSp_same]
  rw [exec_alu rfl, execNonConditional_dispatch _ _ _ _ rfl, hstate, ← subAlu_result, ← subOverflow_one]
  rfl

/-- A tick of SUB PC, 1 writes O only: PC, past its one word, is taken back by one. -/
theorem step_sub_pc_one {s : State} (hs : s.skip = .normal) (hw : s.readMem s.pc = 0x85C3#16) :
    step s = .next (s.setO (if s.pc = 0xFFFF#16 then 0xFFFF#16 else 0x0000#16)) := by
  have hdecode : decode (fetchWords s) =
      .instr (.sub .pc (.smallLiteral 1#5)) [s.readMem (s.pc + 1#16), s.readMem (s.pc + 2#16)] := by
    rw [fetchWords, hw]
    rfl
  have hzero : s.pc + 1#16 = 0x0000#16 ↔ s.pc = 0xFFFF#16 := by bv_omega
  have hadvance : advance (.sub .pc (.smallLiteral 1#5)) s = s.setPc (s.pc + 1#16) := rfl
  rw [step_of_normal hdecode hs, hadvance, exec_sub_pc_one, State.setPc_setPc, State.setPc_pc,
    BitVec.add_sub_cancel, State.setPc_same]
  simp only [hzero]

/-- Settles O27: the first step keeps what the loop depends on, so the second is the first again. -/
theorem subPcOneHoldsTheMachine : Obligations.SubPcOneHoldsTheMachine := by
  intro s hs hw
  refine ⟨step_sub_pc_one hs hw, ?_⟩
  generalize hv : (if s.pc = 0xFFFF#16 then 0xFFFF#16 else 0x0000#16) = v
  rw [step_sub_pc_one (s := s.setO v) hs hw, ← hv]
  rfl

end Sys2Proof.Machine
end

section
/-! PROOFS. SET, ADD, SUB, MUL, DIV and MOD (42_move_arith.md): what each operation answers on two words, the exact
arithmetic that result and O satisfy together, and from them the whole effect of each instruction. -/

namespace Sys2Proof.Machine

/-! ### What the operations answer on two words -/

theorem setAlu_eq (d s : Word) : setAlu d s = ⟨s, none⟩ := rfl

theorem addAlu_eq (d s : Word) :
    addAlu d s = ⟨d + s, some (if 2 ^ 16 ≤ d.toNat + s.toNat then 0x0001#16 else 0x0000#16)⟩ := rfl

theorem subOverflow_eq (d s : Word) : subOverflow d s = if d.toNat < s.toNat then 0xFFFF#16 else 0x0000#16 := by
  have hborrow : (d.toNat : Int) - (s.toNat : Int) < 0 ↔ d.toNat < s.toNat := by omega
  simp only [subOverflow, hborrow]

theorem subAlu_eq (d s : Word) : subAlu d s = ⟨d - s, some (if d.toNat < s.toNat then 0xFFFF#16 else 0x0000#16)⟩ := by
  rw [← subAlu_result, ← subOverflow_eq]
  rfl

theorem mulAlu_eq (d s : Word) : mulAlu d s = ⟨d * s, some (BitVec.ofNat 16 (d.toNat * s.toNat / 2 ^ 16))⟩ := by
  have hlow : BitVec.ofNat 16 (d.toNat * s.toNat) = d * s := by rw [BitVec.ofNat_mul]; simp
  rw [mulAlu, mulOverflow, hlow, Nat.shiftRight_eq_div_pow]

theorem divAlu_zero (d : Word) : divAlu d 0#16 = ⟨0x0000#16, some 0x0000#16⟩ := rfl

theorem divAlu_of_ne_zero (d : Word) {s : Word} (hs : s ≠ 0#16) :
    divAlu d s = ⟨d / s, some (BitVec.ofNat 16 (d.toNat * 2 ^ 16 / s.toNat))⟩ := by
  have hquot : BitVec.ofNat 16 (d.toNat / s.toNat) = d / s := BitVec.udiv_def.symm
  rw [divAlu, divOverflow, if_neg hs, if_neg hs, hquot, Nat.shiftLeft_eq]

theorem modAlu_zero (d : Word) : modAlu d 0#16 = ⟨0x0000#16, some 0x0000#16⟩ := rfl

theorem modAlu_of_ne_zero (d : Word) {s : Word} (hs : s ≠ 0#16) : modAlu d s = ⟨d % s, none⟩ := by
  have hrem : BitVec.ofNat 16 (d.toNat % s.toNat) = d % s := BitVec.umod_def.symm
  rw [modAlu, modOverflow, if_neg hs, if_neg hs, hrem]

/-! ### Result and O together (R127) -/

/-- The carry and the sum are the 17-bit sum. -/
theorem addAlu_sum (d s : Word) : ∃ c, (addAlu d s).overflow = some c ∧ c.toNat ≤ 1 ∧
    c.toNat * 2 ^ 16 + (addAlu d s).result.toNat = d.toNat + s.toNat := by
  rw [addAlu_eq]
  refine ⟨_, rfl, ?_⟩
  split
  case isTrue hcarry => exact ⟨by decide, by bv_omega⟩
  case isFalse hfits => exact ⟨by decide, by bv_omega⟩

/-- The borrow extends the difference to the 32-bit two's-complement difference. -/
theorem subAlu_difference (d s : Word) :
    ∃ c, (subAlu d s).overflow = some c ∧ c ++ (subAlu d s).result = d.setWidth 32 - s.setWidth 32 := by
  rw [subAlu_eq]
  refine ⟨_, rfl, BitVec.eq_of_toNat_eq ?_⟩
  rw [BitVec.toNat_append, ← Nat.shiftLeft_add_eq_or_of_lt (d - s).isLt, Nat.shiftLeft_eq]
  split
  case isTrue hborrow => bv_omega
  case isFalse hle => bv_omega

/-- O and the result are the two halves of the 32-bit product. -/
theorem mulAlu_product (d s : Word) : ∃ c, (mulAlu d s).overflow = some c ∧
    c.toNat * 2 ^ 16 + (mulAlu d s).result.toNat = d.toNat * s.toNat := by
  rw [mulAlu_eq]
  refine ⟨_, rfl, ?_⟩
  have hprod : d.toNat * s.toNat < 2 ^ 16 * 2 ^ 16 := Nat.mul_lt_mul'' d.isLt s.isLt
  have hhigh : d.toNat * s.toNat / 2 ^ 16 < 2 ^ 16 := Nat.div_lt_of_lt_mul hprod
  rw [BitVec.toNat_mul, BitVec.toNat_ofNat, Nat.mod_eq_of_lt hhigh]
  exact Nat.div_add_mod' _ _

/-- Dividing the scaled number splits into the whole quotient and the fraction of the remainder. -/
theorem mul_div_eq_div_mul_add (n k : Nat) {m : Nat} (hm : 0 < m) : n * k / m = n / m * k + n % m * k / m := by
  have hsplit : n * k = m * (n / m * k) + n % m * k := by
    rw [← Nat.mul_assoc, ← Nat.add_mul, Nat.div_add_mod]
  rw [hsplit, Nat.mul_add_div hm]

/-- O after DIV is the fraction of the remainder (D8, log 11). -/
theorem toNat_div_fraction (d : Word) {s : Word} (hs : s ≠ 0#16) :
    (BitVec.ofNat 16 (d.toNat * 2 ^ 16 / s.toNat)).toNat = d.toNat % s.toNat * 2 ^ 16 / s.toNat := by
  have hpos : 0 < s.toNat := BitVec.toNat_pos_of_ne_zero hs
  have hfraction : d.toNat % s.toNat * 2 ^ 16 / s.toNat < 2 ^ 16 :=
    Nat.div_lt_of_lt_mul (Nat.mul_lt_mul_of_pos_right (Nat.mod_lt _ hpos) (by decide))
  rw [BitVec.toNat_ofNat, mul_div_eq_div_mul_add _ _ hpos, Nat.mul_add_mod_self_right, Nat.mod_eq_of_lt hfraction]

/-- The result and O are the 16.16 quotient; by zero both are 0. -/
theorem divAlu_quotient (d s : Word) : ∃ c, (divAlu d s).overflow = some c ∧
    (s = 0#16 → (divAlu d s).result = 0#16 ∧ c = 0#16) ∧
    (s ≠ 0#16 → (divAlu d s).result.toNat * 2 ^ 16 + c.toNat = d.toNat * 2 ^ 16 / s.toNat ∧
      c.toNat = d.toNat % s.toNat * 2 ^ 16 / s.toNat) := by
  by_cases hs : s = 0#16
  · rw [hs, divAlu_zero]
    exact ⟨_, rfl, fun _ => ⟨rfl, rfl⟩, fun h => absurd rfl h⟩
  · rw [divAlu_of_ne_zero d hs]
    have hpos : 0 < s.toNat := BitVec.toNat_pos_of_ne_zero hs
    refine ⟨_, rfl, fun h => absurd h hs, fun _ => ⟨?_, toNat_div_fraction d hs⟩⟩
    rw [toNat_div_fraction d hs, BitVec.toNat_udiv, ← mul_div_eq_div_mul_add _ _ hpos]

/-- Quotient and remainder of a division by a non-zero word. -/
theorem modAlu_remainder (d : Word) {s : Word} (hs : s ≠ 0#16) :
    (modAlu d s).overflow = none ∧ (modAlu d s).result.toNat < s.toNat ∧
      d.toNat = s.toNat * (divAlu d s).result.toNat + (modAlu d s).result.toNat := by
  rw [modAlu_of_ne_zero d hs, divAlu_of_ne_zero d hs, BitVec.toNat_udiv, BitVec.toNat_umod]
  exact ⟨rfl, Nat.mod_lt _ (BitVec.toNat_pos_of_ne_zero hs), (Nat.div_add_mod _ _).symm⟩

/-- Settles O42, one law per operation. -/
theorem arithmeticLaws : Obligations.ArithmeticLaws := by
  intro d s
  refine ⟨addAlu_sum d s, subAlu_difference d s, mulAlu_product d s, divAlu_quotient d s, ?_, modAlu_remainder d⟩
  rintro rfl
  exact modAlu_zero d

/-! ### The instructions -/

/-- An instruction of opcodes 0x1 to 0xB changes nothing when its destination is a literal (41_tick_sequencer.md R103). -/
theorem exec_alu_literal {i : Instr} {d b : Operand} {f : Word → Word → AluResult} (h : aluOf i = some (d, b, f))
    (s : State) (hd : isLiteral d = true) : exec i s = .next s := by
  rw [exec_alu h, execNonConditional_literal _ _ _ _ hd]

/-- Both destination classes of an instruction of opcodes 0x1 to 0xB that answers `r` on the values of its operands. -/
theorem exec_alu_of_eq {i : Instr} {d b : Operand} {f : Word → Word → AluResult} (h : aluOf i = some (d, b, f))
    {s : State} {r : AluResult} (hr : f (destValue d b s) (sourceValue d b s) = r) :
    (isLiteral d = true → exec i s = .next s) ∧
    (isLiteral d = false → ∃ t, exec i s = .next t ∧ BasicEffect d b s t r.result r.overflow) := by
  subst hr
  exact ⟨exec_alu_literal h s, exec_alu_effect h s⟩

/-- The form of DIV and MOD: an operation that answers 0 and 0 on a zero source, and `r` on another. -/
theorem exec_alu_of_zero_source {i : Instr} {d b : Operand} {f : Word → Word → AluResult}
    (h : aluOf i = some (d, b, f)) {s : State} {r : AluResult} (hzero : ∀ v, f v 0#16 = ⟨0x0000#16, some 0x0000#16⟩)
    (hr : sourceValue d b s ≠ 0#16 → f (destValue d b s) (sourceValue d b s) = r) :
    (isLiteral d = true → exec i s = .next s) ∧
    (isLiteral d = false → ∃ t, exec i s = .next t ∧
      (sourceValue d b s = 0#16 → BasicEffect d b s t 0x0000#16 (some 0x0000#16)) ∧
      (sourceValue d b s ≠ 0#16 → BasicEffect d b s t r.result r.overflow)) := by
  refine ⟨exec_alu_literal h s, fun hd => ?_⟩
  obtain ⟨t, ht, effect⟩ := exec_alu_effect h s hd
  refine ⟨t, ht, fun hs => ?_, fun hs => ?_⟩
  · rwa [hs, hzero] at effect
  · rwa [hr hs] at effect

/-- Settles O29, by what SET answers. -/
theorem setMovesTheSource : Obligations.SetMovesTheSource := fun _ _ _ => exec_alu_of_eq rfl (setAlu_eq _ _)

/-- Settles O30, by what ADD answers. -/
theorem addWritesSumAndCarry : Obligations.AddWritesSumAndCarry := fun _ _ _ => exec_alu_of_eq rfl (addAlu_eq _ _)

/-- Settles O31, by what SUB answers. -/
theorem subWritesDifferenceAndBorrow : Obligations.SubWritesDifferenceAndBorrow :=
  fun _ _ _ => exec_alu_of_eq rfl (subAlu_eq _ _)

/-- Settles O32, by what MUL answers. -/
theorem mulWritesBothHalves : Obligations.MulWritesBothHalves := fun _ _ _ => exec_alu_of_eq rfl (mulAlu_eq _ _)

/-- Settles O33, by what DIV answers on a zero source and on another. -/
theorem divWritesQuotientAndFraction : Obligations.DivWritesQuotientAndFraction :=
  fun _ _ _ => exec_alu_of_zero_source rfl divAlu_zero (divAlu_of_ne_zero _)

/-- Settles O34, by what MOD answers on a zero source and on another. -/
theorem modWritesRemainder : Obligations.ModWritesRemainder :=
  fun _ _ _ => exec_alu_of_zero_source rfl modAlu_zero (modAlu_of_ne_zero _)

end Sys2Proof.Machine
end

section
/-! PROOFS. SHL, SHR, AND, BOR and XOR (43_shift_logic.md): what each operation answers on two words, the exact shifts
that result and O satisfy together, and from them the whole effect of each instruction. -/

namespace Sys2Proof.Machine

/-! ### What the shifts answer on two words -/

theorem shlAlu_eq (d s : Word) :
    shlAlu d s = ⟨BitVec.ofNat 16 (d.toNat * 2 ^ s.toNat), some (BitVec.ofNat 16 (d.toNat * 2 ^ s.toNat / 2 ^ 16))⟩ := by
  rw [shlAlu, shlOverflow, Nat.shiftLeft_eq, Nat.shiftRight_eq_div_pow]

theorem shrAlu_eq (d s : Word) :
    shrAlu d s = ⟨BitVec.ofNat 16 (d.toNat / 2 ^ s.toNat), some (BitVec.ofNat 16 (d.toNat * 2 ^ 16 / 2 ^ s.toNat))⟩ := by
  rw [shrAlu, shrOverflow, Nat.shiftLeft_eq, Nat.shiftRight_eq_div_pow, Nat.shiftRight_eq_div_pow]

/-! ### Result and O together (R146) -/

/-- The two low words of a number, put together, are the number modulo 2^32. -/
theorem toNat_high_mul_add_toNat_low (n : Nat) :
    (BitVec.ofNat 16 (n / 2 ^ 16)).toNat * 2 ^ 16 + (BitVec.ofNat 16 n).toNat = n % 2 ^ 32 := by
  rw [BitVec.toNat_ofNat, BitVec.toNat_ofNat]
  omega

/-- Two words that make up the number 0 are both 0. -/
theorem eq_zero_of_toNat_mul_add_eq_zero {high low : Word} (h : high.toNat * 2 ^ 16 + low.toNat = 0) :
    high = 0#16 ∧ low = 0#16 := by
  bv_omega

/-- O and the result of SHL are the two low words of the exact shift. -/
theorem shlAlu_shift (d s : Word) : ∃ c, (shlAlu d s).overflow = some c ∧
    c.toNat * 2 ^ 16 + (shlAlu d s).result.toNat = d.toNat * 2 ^ s.toNat % 2 ^ 32 ∧
    (s.toNat ≤ 16 → c.toNat * 2 ^ 16 + (shlAlu d s).result.toNat = d.toNat * 2 ^ s.toNat) ∧
    (32 ≤ s.toNat → c = 0#16 ∧ (shlAlu d s).result = 0#16) := by
  rw [shlAlu_eq]
  have hjoin := toNat_high_mul_add_toNat_low (d.toNat * 2 ^ s.toNat)
  refine ⟨_, rfl, hjoin, fun hs => ?_, fun hs => eq_zero_of_toNat_mul_add_eq_zero ?_⟩
  · have hfits : d.toNat * 2 ^ s.toNat < 2 ^ 16 * 2 ^ 16 :=
      Nat.mul_lt_mul_of_lt_of_le d.isLt (Nat.pow_le_pow_right (by decide) hs) (by decide)
    exact hjoin.trans (Nat.mod_eq_of_lt hfits)
  · have hgone : 2 ^ 32 ∣ d.toNat * 2 ^ s.toNat := (Nat.pow_dvd_pow 2 hs).mul_left _
    exact hjoin.trans (Nat.mod_eq_zero_of_dvd hgone)

/-- The floor of `d / 2^k` is the whole part of the 16.16 value `d * 2^16` shifted right. -/
theorem mul_div_pow_div_eq_div_pow (n k : Nat) : n * 2 ^ 16 / 2 ^ k / 2 ^ 16 = n / 2 ^ k := by
  rw [Nat.div_right_comm, Nat.mul_div_cancel _ (by decide)]

/-- For a count of at most 16, O after SHR holds the bits shifted out, left-aligned (D9, log 12). -/
theorem toNat_shr_fraction (n : Nat) {k : Nat} (hk : k ≤ 16) :
    (BitVec.ofNat 16 (n * 2 ^ 16 / 2 ^ k)).toNat = n % 2 ^ k * 2 ^ (16 - k) := by
  have hpow : 2 ^ 16 = 2 ^ k * 2 ^ (16 - k) := by rw [← Nat.pow_add, Nat.add_sub_cancel' hk]
  calc (BitVec.ofNat 16 (n * 2 ^ 16 / 2 ^ k)).toNat
    _ = n * 2 ^ 16 / 2 ^ k % 2 ^ 16 := BitVec.toNat_ofNat _ _
    _ = n * 2 ^ (16 - k) % (2 ^ k * 2 ^ (16 - k)) := by
      rw [hpow, Nat.mul_left_comm, Nat.mul_div_cancel_left _ (Nat.two_pow_pos k)]
    _ = n % 2 ^ k * 2 ^ (16 - k) := Nat.mul_mod_mul_right _ _ _

/-- The result and O of SHR are the 16.16 value `d * 2^16` shifted right. -/
theorem shrAlu_shift (d s : Word) : ∃ c, (shrAlu d s).overflow = some c ∧
    (shrAlu d s).result.toNat * 2 ^ 16 + c.toNat = d.toNat * 2 ^ 16 / 2 ^ s.toNat ∧
    (s.toNat ≤ 15 → c.toNat = d.toNat % 2 ^ s.toNat * 2 ^ (16 - s.toNat)) ∧
    (32 ≤ s.toNat → c = 0#16 ∧ (shrAlu d s).result = 0#16) := by
  rw [shrAlu_eq]
  have hscaled : d.toNat * 2 ^ 16 < 2 ^ 32 := Nat.mul_lt_mul_of_pos_right d.isLt (by decide)
  have hjoin : (BitVec.ofNat 16 (d.toNat / 2 ^ s.toNat)).toNat * 2 ^ 16 +
      (BitVec.ofNat 16 (d.toNat * 2 ^ 16 / 2 ^ s.toNat)).toNat = d.toNat * 2 ^ 16 / 2 ^ s.toNat := by
    rw [← mul_div_pow_div_eq_div_pow, toNat_high_mul_add_toNat_low,
      Nat.mod_eq_of_lt (Nat.div_lt_of_lt hscaled)]
  refine ⟨_, rfl, hjoin, fun hs => toNat_shr_fraction _ (by omega),
    fun hs => (eq_zero_of_toNat_mul_add_eq_zero (hjoin.trans ?_)).symm⟩
  exact Nat.div_eq_of_lt (hscaled.trans_le (Nat.pow_le_pow_right (by decide) hs))

/-- Settles O43, one law per shift. -/
theorem shiftLaws : Obligations.ShiftLaws := fun d s => ⟨shlAlu_shift d s, shrAlu_shift d s⟩

/-! ### The instructions -/

/-- Settles O35, by what SHL answers. -/
theorem shlWritesShiftAndHighBits : Obligations.ShlWritesShiftAndHighBits :=
  fun _ _ _ => exec_alu_of_eq rfl (shlAlu_eq _ _)

/-- Settles O36, by what SHR answers. -/
theorem shrWritesShiftAndLowBits : Obligations.ShrWritesShiftAndLowBits :=
  fun _ _ _ => exec_alu_of_eq rfl (shrAlu_eq _ _)

/-- Settles O37, by the effect of each of the three and what it answers on each bit. -/
theorem bitwiseOperationsActBitByBit : Obligations.BitwiseOperationsActBitByBit := by
  intro d b s
  refine ⟨fun hd => ⟨exec_alu_literal rfl s hd, exec_alu_literal rfl s hd, exec_alu_literal rfl s hd⟩, fun hd => ?_⟩
  obtain ⟨t, hand, tEffect⟩ := exec_alu_effect (i := .and d b) rfl s hd
  obtain ⟨u, hbor, uEffect⟩ := exec_alu_effect (i := .bor d b) rfl s hd
  obtain ⟨v, hxor, vEffect⟩ := exec_alu_effect (i := .xor d b) rfl s hd
  exact ⟨t, u, v, _, _, _, hand, tEffect, hbor, uEffect, hxor, vEffect,
    fun _ _ => ⟨BitVec.getLsbD_and, BitVec.getLsbD_or, BitVec.getLsbD_xor⟩⟩

end Sys2Proof.Machine
end

section
/-! PROOFS. IFE, IFN, IFG and IFB (44_conditional.md): when each condition holds on two words, the skip state a test
leaves, and from them the whole effect of each instruction. -/

namespace Sys2Proof.Machine

/-! ### The conditions on two words -/

theorem ifeCond_iff (d s : Word) : ifeCond d s = true ↔ d = s := decide_eq_true_iff

theorem ifnCond_iff (d s : Word) : ifnCond d s = true ↔ d ≠ s := decide_eq_true_iff

theorem ifgCond_iff (d s : Word) : ifgCond d s = true ↔ s.toNat < d.toNat := decide_eq_true_iff

theorem ifbCond_iff (d s : Word) : ifbCond d s = true ↔ d &&& s ≠ 0#16 := decide_eq_true_iff

/-- A word is not 0 exactly when one of its 16 bits is 1. -/
theorem ne_zero_iff_exists_getLsbD (w : Word) : w ≠ 0#16 ↔ ∃ k, k < 16 ∧ w.getLsbD k = true := by
  have hzero : w = 0#16 ↔ ∀ k, k < 16 → w.getLsbD k = false := by simp [BitVec.eq_of_getLsbD_eq_iff]
  simp [hzero]

/-- The condition of IFB, bit by bit (R164). -/
theorem ifbCond_iff_exists_common_bit (d s : Word) :
    ifbCond d s = true ↔ ∃ k, k < 16 ∧ d.getLsbD k = true ∧ s.getLsbD k = true := by
  rw [ifbCond_iff, ne_zero_iff_exists_getLsbD]
  simp only [BitVec.getLsbD_and, Bool.and_eq_true]

/-! ### The instructions -/

/-- Every test, on any destination, has the effect of a condition that `P` says in other words (R160). -/
theorem exec_test_of_iff {i : Instr} {d b : Operand} {c : Word → Word → Bool} (h : testOf i = some (d, b, c)) {s : State}
    {P : Prop} (hc : c (destValue d b s) (sourceValue d b s) = true ↔ P) :
    ∃ t, exec i s = .next t ∧ CondEffect d b s t P :=
  ⟨_, exec_test h s, (condTemplate_effect c d b s).congr hc⟩

/-- The skip state a test leaves when it runs from `Normal`. -/
theorem CondEffect.skip_eq {d b : Operand} {s t : State} {P : Prop} [Decidable P] (h : CondEffect d b s t P)
    (hs : s.skip = .normal) : t.skip = if P then .normal else .skipNext := by
  split
  · next hP => exact (h.skipWhenTrue hP).trans hs
  · next hP => exact h.skipWhenFalse hP

/-- Settles O38, by the effects of the two tests: IFE skips when its condition fails, which is the condition of IFN. -/
theorem ifeAndIfnAreComplements : Obligations.IfeAndIfnAreComplements := by
  intro d b s
  obtain ⟨t, hife, tEffect⟩ := exec_test_of_iff (i := .ife d b) rfl (s := s) (ifeCond_iff _ _)
  obtain ⟨u, hifn, uEffect⟩ := exec_test_of_iff (i := .ifn d b) rfl (s := s) (ifnCond_iff _ _)
  refine ⟨t, u, hife, tEffect, hifn, uEffect, fun hs => ?_⟩
  rw [tEffect.skip_eq hs, uEffect.skip_eq hs]
  by_cases heq : destValue d b s = sourceValue d b s <;> simp [heq]

/-- Settles O39, by the condition of IFG. -/
theorem ifgComparesUnsigned : Obligations.IfgComparesUnsigned := fun _ _ _ => exec_test_of_iff rfl (ifgCond_iff _ _)

/-! ### IFB on a register and a small literal -/

/-- A tick of IFB on a register and a small literal, whose one word stands at PC, leaves `Normal` when the two have
a bit in common and `SkipNext` when they have none. -/
theorem step_ifb_reg_smallLiteral {s : State} {r : Reg} {n : BitVec 5} (hs : s.skip = .normal)
    (hw : s.readMem s.pc = assembleWord 0xF#4 (Operand.reg r).code (Operand.smallLiteral n).code) :
    ∃ t, step s = .next t ∧ t.skip = if s.reg r &&& n.setWidth 16 ≠ 0#16 then .normal else .skipNext := by
  have hdecode : decode (fetchWords s) =
      .instr (.ifb (.reg r) (.smallLiteral n)) [s.readMem (s.pc + 1#16), s.readMem (s.pc + 2#16)] := by
    rw [fetchWords, hw]
    exact decode_encode_append (.ifb (.reg r) (.smallLiteral n)) rfl _
  obtain ⟨t, ht, effect⟩ := exec_test_of_iff (i := .ifb (.reg r) (.smallLiteral n)) rfl (ifbCond_iff _ _)
  exact ⟨t, (step_of_normal hdecode hs).trans ht, effect.skip_eq hs⟩

/-- Settles O40, by the condition of IFB bit by bit; both worked examples are IFB on A and a small literal. -/
theorem ifbTestsCommonBits : Obligations.IfbTestsCommonBits := by
  refine ⟨fun _ _ => rfl, fun d b s => exec_test_of_iff rfl (ifbCond_iff_exists_common_bit _ _),
    fun s hs ha => ⟨fun hw => ?_, fun hw => ?_⟩⟩
  · obtain ⟨t, ht, hskip⟩ := step_ifb_reg_smallLiteral (r := .a) (n := 0x10#5) hs hw
    rw [ha] at hskip
    exact ⟨t, ht, hskip.trans (if_pos (by decide))⟩
  · obtain ⟨t, ht, hskip⟩ := step_ifb_reg_smallLiteral (r := .a) (n := 0x0F#5) hs hw
    rw [ha] at hskip
    exact ⟨t, ht, hskip.trans (if_neg (by decide))⟩

end Sys2Proof.Machine
end

section
/-! PROOFS. JSR and the reserved words (45_nonbasic.md): a reserved word only moves PC, JSR pushes the address after
itself and jumps, and SET PC, POP undoes it. -/

namespace Sys2Proof.Machine

/-! ### Reserved words (R181) -/

/-- Field `a` is the sub-opcode and takes no extra word (30_encoding.md R56; D4, log 7). -/
theorem length_reservedNonbasic (n : BitVec 6) (b : Operand) :
    (Instr.reservedNonbasic n b).length = 1 + needsExtra b.code := by
  rw [← b.extraWords_length, Nat.add_comm]
  rfl

/-- A no-op, skipped or not, moves PC past its own words and leaves no skip pending (41_tick_sequencer.md R103). -/
theorem step_of_isNoOp {s : State} {i : Instr} {rest : List Word} (h : decode (fetchWords s) = .instr i rest)
    (hi : isNoOp i = true) : step s = .next ((advance i s).setSkip .normal) := by
  have hsupp : s.suppresses = true := by rw [suppresses_of_decode h, hi, Bool.or_true]
  rw [step_of_suppresses hsupp, advance_of_decode h]

/-- Settles O26: a reserved word is a no-op, of the length its operand gives it. -/
theorem reservedWordIsANoOp : Obligations.ReservedWordIsANoOp := by
  refine ⟨fun _ _ _ => exec_of_isNoOp rfl _, fun s n b rest h => ?_⟩
  rw [step_of_isNoOp h rfl, advance, length_reservedNonbasic]

/-! ### Call and return (R180, R182) -/

/-- Settles O41, by the effect of `opJsr`. -/
theorem jsrPushesAndJumps : Obligations.JsrPushesAndJumps := fun b s => ⟨_, rfl, opJsr_effect b s⟩

/-- The cell SP points to after a JSR holds the return address. -/
theorem JsrEffect.readMem_sp {b : Operand} {s t : State} (h : JsrEffect b s t) : t.readMem t.sp = s.pc := by
  rw [h.mem, if_pos h.sp]

/-- A pop after a JSR takes SP back to where the operand of the JSR had left it. -/
theorem JsrEffect.sp_add_one {b : Operand} {s t : State} (h : JsrEffect b s t) : t.sp + 1#16 = s.sp + stackShift b := by
  rw [h.sp, jsrAddress, BitVec.sub_add_cancel]

/-- SET PC, POP jumps to the word on top of the stack and takes it off (42_move_arith.md R121). -/
theorem exec_set_pc_pop (s : State) :
    ∃ t, exec (.set .pc .pop) s = .next t ∧ t.pc = s.readMem s.sp ∧ t.sp = s.sp + 1#16 := by
  obtain ⟨t, ht, effect⟩ := exec_alu_effect (i := .set .pc .pop) rfl s rfl
  have popped : sourceValue .pc .pop s = s.readMem (s.sp + stackShift .pc) := rfl
  have moved : t.sp = s.sp + stackShift .pc + stackShift .pop := effect.sp
  rw [add_stackShift_of_no_shift (op := .pc) rfl] at popped moved
  exact ⟨t, ht, effect.pc.trans popped, moved⟩

/-- Settles O49: the return pops what the call pushed. -/
theorem returnAfterCall : Obligations.ReturnAfterCall := by
  intro b s
  obtain ⟨t, ht, call⟩ := jsrPushesAndJumps b s
  refine ⟨t, ht, fun u hsp hmem => ?_⟩
  obtain ⟨v, hv, hpc, hvsp⟩ := exec_set_pc_pop u
  refine ⟨v, hv, ?_, ?_⟩
  · rw [hpc, hsp, hmem, call.readMem_sp]
  · rw [hvsp, hsp, call.sp_add_one]

end Sys2Proof.Machine
end

section
/-! PROOFS. What the host does to a machine (70_reset_and_hazards.md): a load into any machine and runs of any number
of ticks. -/

namespace Sys2Proof.Machine

/-- Settles O9, by the law of `load`; the fields other than memory are those of the machine loaded into. -/
theorem loadCopiesTheImageFromZero : Obligations.LoadCopiesTheImageFromZero := fun s image =>
  ⟨s.readMem_load image, rfl, rfl, rfl, rfl, rfl⟩

/-- Every tick goes on to a next state (60_exceptions.md R190). -/
theorem exists_step_eq_next (s : State) : ∃ t, step s = .next t :=
  (everyStepAnswersANextState.1 s).exists

theorem run_succ_of_step {s t : State} (h : step s = .next t) (n : Nat) : run (n + 1) s = run n t := by
  simp only [run, h]

theorem run_safe (n : Nat) (s : State) : SafeFor n s := by
  induction n generalizing s with
  | zero => exact ⟨s, rfl⟩
  | succ n ih =>
    obtain ⟨t, ht⟩ := exists_step_eq_next s
    rw [SafeFor, run_succ_of_step ht]
    exact ih t

theorem run_add_of_run {m : Nat} {s t : State} (h : run m s = .next t) (n : Nat) : run (m + n) s = run n t := by
  induction m generalizing s with
  | zero =>
    cases h
    rw [Nat.zero_add]
  | succ m ih =>
    obtain ⟨u, hu⟩ := exists_step_eq_next s
    rw [run_succ_of_step hu] at h
    rw [Nat.succ_add, run_succ_of_step hu]
    exact ih h

/-- Settles O10: the first run comes to its end, and the second starts where it ended. -/
theorem runsComposeAndNeverStop : Obligations.RunsComposeAndNeverStop := by
  refine ⟨fun _ => rfl, run_safe, fun m n s => ?_⟩
  obtain ⟨t, ht⟩ := run_safe m s
  exact ⟨t, ht, run_add_of_run ht n⟩

end Sys2Proof.Machine
end
